-- ==== Sys2Proof/Word.lean ====
section
/-! DEFINITION. The machine's word types (R6): a byte, the 64-bit command word and the 32-bit response word.
Bit 0 of each is its least significant bit (R8). -/

namespace Sys2Proof

/-- One cell of FB or one byte of RGB (R20, R23, R45). -/
abbrev Byte := BitVec 8

/-- The command word the host hands the block (R60). -/
abbrev CmdWord := BitVec 64

/-- The response word the block returns for each command (R68). -/
abbrev RespWord := BitVec 32

end Sys2Proof
end

