-- ==== Sys2Proof/Syntax.lean ====
section
/-! DEFINITION. The six commands of spec/opcode_table.json (30_encoding.md R67), with their operands as the unsigned
numbers of R66, and the pseudo-instructions of R72. -/

namespace Sys2Proof

/-- One command. Operands are numbers: R66 reads each field as its unsigned value. Which numbers a field can hold is
`Instr.wf`; which of them the command accepts is checked when it executes. -/
inductive Instr where
  /-- PLOT x, y, c (R80): write one cell. -/
  | plot (x y c : Nat)
  /-- READ_PIXEL x, y (R81): read one cell. -/
  | readPixel (x y : Nat)
  /-- DRAW_LINE x0, y0, x1, y1, c (R90): rasterize a line. -/
  | drawLine (x0 y0 x1 y1 c : Nat)
  /-- CONVERT (R111): regenerate RGB from FB. -/
  | convert
  /-- READ_RGB off (R112): read one byte of RGB. -/
  | readRgb (off : Nat)
  /-- READ_STATUS (R130): read STATUS. -/
  | readStatus
deriving DecidableEq, Repr

/-- The pseudo-instructions of R72; `Sys2Proof.Machine.expandPseudo` gives their expansions. -/
inductive Pseudo where
  /-- HLINE y, xa, xb, c -/
  | hline (y xa xb c : Nat)
  /-- VLINE x, ya, yb, c -/
  | vline (x ya yb c : Nat)
  /-- READ_RGB_PIXEL x, y -/
  | readRgbPixel (x y : Nat)
deriving DecidableEq, Repr

end Sys2Proof
end

