-- ==== Sys2Proof/WellFormed.lean ====
section
/-! DEFINITION. Which commands have an encoding: each operand fits its field (30_encoding.md R61, R66, R71). A number that
fits but lies above the legal range IS well-formed: it encodes, and faults when it executes (R66). -/

namespace Sys2Proof

/-- An x operand fits the 9 bits of X0 or X1 (R61). -/
abbrev fitsX (x : Nat) : Prop := x < 2 ^ 9

/-- A y operand fits the 8 bits of Y0 or Y1 (R61). -/
abbrev fitsY (y : Nat) : Prop := y < 2 ^ 8

/-- A colour operand fits the 8 bits of C (R61). -/
abbrev fitsC (c : Nat) : Prop := c < 2 ^ 8

/-- An RGB offset fits the 18 bits of OFF (R61). -/
abbrev fitsOff (off : Nat) : Prop := off < 2 ^ 18

/-- Every operand fits its field, the check R71 gives the assembler. -/
def Instr.wf : Instr → Bool
  | .plot x y c => decide (fitsX x) && (decide (fitsY y) && decide (fitsC c))
  | .readPixel x y => decide (fitsX x) && decide (fitsY y)
  | .drawLine x0 y0 x1 y1 c =>
      decide (fitsX x0) && (decide (fitsY y0) && (decide (fitsX x1) && (decide (fitsY y1) && decide (fitsC c))))
  | .convert => true
  | .readRgb off => decide (fitsOff off)
  | .readStatus => true

end Sys2Proof
end

