-- ==== Sys2Proof/Decode.lean ====
section
/-! DEFINITION. The decoder of 30_encoding.md R60 to R70, written from the rows of R67, then the encoder written from the
formats of R62 to R65, then the words as byte sequences (20_memory.md R45: the byte with bits 7:0 first). -/

namespace Sys2Proof

/-- The six rows of the opcode map (R67). -/
inductive Op where
  | plot
  | readPixel
  | drawLine
  | convert
  | readRgb
  | readStatus
deriving DecidableEq, Repr

/-- One row of R67: a word belongs to it when `cmd & mask = pattern` (the spec's column "match"). -/
structure OpRow where
  op : Op
  pattern : CmdWord
  mask : CmdWord
deriving DecidableEq, Repr

/-- Why a word or a byte sequence is no command (R70). -/
inductive DecodeError where
  /-- OP is 0x0 or 0x7..0xF. -/
  | illegalOpcode
  /-- OP is 0x1..0x6 and a must-be-zero bit of its format is 1. -/
  | mustBeZero
  /-- Fewer than eight bytes are left, so there is no command word (log entry 16). -/
  | truncated
deriving DecidableEq, Repr

/-- The opcode map's rows, in the order of R67. -/
def opcodeRows : List OpRow := [
  ⟨.plot,       0x0000000000000001#64, 0xFFFFC03FFFE0000F#64⟩,
  ⟨.readPixel,  0x0000000000000002#64, 0xFFFFFFFFFFE0000F#64⟩,
  ⟨.drawLine,   0x0000000000000003#64, 0xFFFFC0000000000F#64⟩,
  ⟨.convert,    0x0000000000000004#64, 0xFFFFFFFFFFFFFFFF#64⟩,
  ⟨.readRgb,    0x0000000000000005#64, 0xFFFFFFFFFFC0000F#64⟩,
  ⟨.readStatus, 0x0000000000000006#64, 0xFFFFFFFFFFFFFFFF#64⟩]

/-- A word matches a row (R67). -/
def OpRow.matchesWord (r : OpRow) (w : CmdWord) : Bool := decide (w &&& r.mask = r.pattern)

/-- OP, bits 3:0 (R61). -/
def fieldOp (w : CmdWord) : BitVec 4 := w.extractLsb' 0 4

/-- X0, bits 12:4, zero-extended (R61, R66). -/
def fieldX0 (w : CmdWord) : Nat := (w.extractLsb' 4 9).toNat

/-- Y0, bits 20:13, zero-extended (R61, R66). -/
def fieldY0 (w : CmdWord) : Nat := (w.extractLsb' 13 8).toNat

/-- X1, bits 29:21, zero-extended (R61, R66). -/
def fieldX1 (w : CmdWord) : Nat := (w.extractLsb' 21 9).toNat

/-- Y1, bits 37:30, zero-extended (R61, R66). -/
def fieldY1 (w : CmdWord) : Nat := (w.extractLsb' 30 8).toNat

/-- C, bits 45:38, zero-extended (R61, R66). -/
def fieldC (w : CmdWord) : Nat := (w.extractLsb' 38 8).toNat

/-- OFF, bits 21:4, zero-extended (R61, R66). -/
def fieldOff (w : CmdWord) : Nat := (w.extractLsb' 4 18).toNat

/-- The command of a row, its operands taken from the fields its format uses (R62 to R66). -/
def operandsOf (w : CmdWord) : Op → Instr
  | .plot => .plot (fieldX0 w) (fieldY0 w) (fieldC w)
  | .readPixel => .readPixel (fieldX0 w) (fieldY0 w)
  | .drawLine => .drawLine (fieldX0 w) (fieldY0 w) (fieldX1 w) (fieldY1 w) (fieldC w)
  | .convert => .convert
  | .readRgb => .readRgb (fieldOff w)
  | .readStatus => .readStatus

/-- The two ways a word that matches no row is illegal (R70). -/
def illegalReason (w : CmdWord) : DecodeError :=
  if 1 ≤ (fieldOp w).toNat ∧ (fieldOp w).toNat ≤ 6 then .mustBeZero else .illegalOpcode

/-- `decode` of R69: the row that matches, else illegal. -/
def decodeWord (w : CmdWord) : Except DecodeError Instr :=
  match opcodeRows.find? (fun r => r.matchesWord w) with
  | some r => .ok (operandsOf w r.op)
  | none => .error (illegalReason w)

/-- The word of a command, bits 63 down to 0 in the order of the format tables R62 to R65. An operand that does not fit its
field loses its high bits here; `assembleInstr` refuses it (R71). -/
def encode : Instr → CmdWord
  | .plot x y c =>
      0#18 ++ BitVec.ofNat 8 c ++ 0#17 ++ BitVec.ofNat 8 y ++ BitVec.ofNat 9 x ++ 0x1#4
  | .readPixel x y =>
      0#18 ++ 0#8 ++ 0#17 ++ BitVec.ofNat 8 y ++ BitVec.ofNat 9 x ++ 0x2#4
  | .drawLine x0 y0 x1 y1 c =>
      0#18 ++ BitVec.ofNat 8 c ++ BitVec.ofNat 8 y1 ++ BitVec.ofNat 9 x1 ++ BitVec.ofNat 8 y0 ++ BitVec.ofNat 9 x0 ++ 0x3#4
  | .convert => 0#60 ++ 0x4#4
  | .readRgb off => 0#42 ++ BitVec.ofNat 18 off ++ 0x5#4
  | .readStatus => 0#60 ++ 0x6#4

/-- The assembler's encoding of one command: refused when an operand does not fit its field (R71). -/
def assembleInstr (i : Instr) : Option CmdWord := if i.wf then some (encode i) else none

/-- The `n` low bytes of a number, the least significant first (R45). -/
def leBytes : Nat → Nat → List Byte
  | 0, _ => []
  | n + 1, v => BitVec.ofNat 8 v :: leBytes n (v / 256)

/-- The number a byte sequence spells, the first byte the least significant (R45). -/
def leValue : List Byte → Nat
  | [] => 0
  | b :: bs => b.toNat + 256 * leValue bs

/-- A command word as the eight bytes a byte transport carries (R45). -/
def cmdBytes (w : CmdWord) : List Byte := leBytes 8 w.toNat

/-- A response word as the four bytes a byte transport carries (R45). -/
def respBytes (r : RespWord) : List Byte := leBytes 4 r.toNat

/-- The command word at the head of a byte sequence, with the bytes after it. -/
def takeWord : List Byte → Option (CmdWord × List Byte)
  | b0 :: b1 :: b2 :: b3 :: b4 :: b5 :: b6 :: b7 :: rest =>
      some (BitVec.ofNat 64 (leValue [b0, b1, b2, b3, b4, b5, b6, b7]), rest)
  | _ => none

/-- The decoder on any bytes: the command at their head and the bytes after it, or the reason there is none. -/
def decodeBytes (bs : List Byte) : Except DecodeError (Instr × List Byte) :=
  match takeWord bs with
  | none => .error .truncated
  | some (w, rest) => (decodeWord w).map (fun i => (i, rest))

/-- A table row's bits as the bytes of its command word: bits from `nbits` on are 0. -/
def tableBytes (nbits w : Nat) : List Byte := leBytes 8 (w % 2 ^ nbits)

/-- The command word those bytes carry. -/
def tableWord (nbits w : Nat) : CmdWord := BitVec.ofNat 64 (leValue (tableBytes nbits w))

/-- What the decoder reads from a command whose bits are `w`, numbered as spec/opcode_table.json numbers them. -/
def decodeTableWord (nbits w : Nat) : Option Instr :=
  match decodeBytes (tableBytes nbits w) with
  | .ok (i, _) => some i
  | .error _ => none

end Sys2Proof
end

