-- ==== Sys2Proof/Config.lean ====
section
/-! DEFINITION. The block's parameters (00_scope.md R6, R7; 10_state.md R25). Every rule is written against these
names, never against their values. The spec leaves no value free, so there is no opaque constant here. -/

namespace Sys2Proof.Config

/-- `W`, the framebuffer's width in pixels (R6). -/
def width : Nat := 320

/-- `H`, the framebuffer's height in pixels (R6). -/
def height : Nat := 200

/-- `NCELLS = W*H` (R6). -/
def ncells : Nat := width * height

/-- RGB bytes per pixel, no padding, no alpha (R6, R42). -/
def bytesPerPixel : Nat := 3

/-- `NRGB = 3*W*H` (R6). -/
def nrgb : Nat := bytesPerPixel * ncells

/-- `INDEX_MAX`, the largest palette index (R6). -/
def indexMax : Nat := 15

/-- The reset value of every FB cell (R20: palette index 0, black). -/
def fbResetValue : Byte := 0#8

/-- One palette entry: the bytes R, G and B (R25). -/
structure Triple where
  r : Byte
  g : Byte
  b : Byte
deriving DecidableEq, Repr

/-- `PALETTE`, the constant table of 16 triples (R25), indices 0 to 15 in order. -/
def palette : Vector Triple 16 := #v[
  ⟨0x00#8, 0x00#8, 0x00#8⟩,  -- 0 black
  ⟨0x00#8, 0x00#8, 0x80#8⟩,  -- 1 blue
  ⟨0x00#8, 0x80#8, 0x00#8⟩,  -- 2 green
  ⟨0x00#8, 0x80#8, 0x80#8⟩,  -- 3 cyan
  ⟨0x80#8, 0x00#8, 0x00#8⟩,  -- 4 red
  ⟨0x80#8, 0x00#8, 0x80#8⟩,  -- 5 magenta
  ⟨0x80#8, 0x80#8, 0x00#8⟩,  -- 6 brown
  ⟨0xC0#8, 0xC0#8, 0xC0#8⟩,  -- 7 lightGray
  ⟨0x80#8, 0x80#8, 0x80#8⟩,  -- 8 darkGray
  ⟨0x00#8, 0x00#8, 0xFF#8⟩,  -- 9 lightBlue
  ⟨0x00#8, 0xFF#8, 0x00#8⟩,  -- 10 lightGreen
  ⟨0x00#8, 0xFF#8, 0xFF#8⟩,  -- 11 lightCyan
  ⟨0xFF#8, 0x00#8, 0x00#8⟩,  -- 12 lightRed
  ⟨0xFF#8, 0x00#8, 0xFF#8⟩,  -- 13 lightMagenta
  ⟨0xFF#8, 0xFF#8, 0x00#8⟩,  -- 14 yellow
  ⟨0xFF#8, 0xFF#8, 0xFF#8⟩]  -- 15 white

end Sys2Proof.Config
end

