-- ==== Sys2Proof/Machine/State.lean ====
section
/-! DEFINITION. The block's state (10_state.md R20 to R34), what the host may send it (60_exceptions.md R155 to R159), and
the reasons a step can stop. Everything is plain data. -/

namespace Sys2Proof.Machine

/-- A memory: cells at rising offsets, none equal to what an unlisted offset reads as (`Memory.wf` in Ops.lean). -/
abbrev Memory := List Host.Cell

/-- The two address spaces (R40, R42, R44). -/
inductive Space where
  /-- The framebuffer store. -/
  | fb
  /-- The RGB output buffer. -/
  | rgb
deriving DecidableEq, Repr

/-- The cause codes of R141; codes 9 to 15 are never produced and have no name here. -/
inductive Cause where
  /-- 0: the command completed. -/
  | none
  /-- 1: no row matches the word. -/
  | illegalCommand
  /-- 2: an x operand is W or more. -/
  | cvX
  /-- 3: a y operand is H or more. -/
  | cvY
  /-- 4: the colour is above 15. -/
  | cvColor
  /-- 5: CONVERT met a cell above 15. -/
  | cvIndex
  /-- 6: the RGB offset is NRGB or more. -/
  | rgbRange
  /-- 7: no CONVERT has completed since reset. -/
  | rgbInvalid
  /-- 8: the block is halted. -/
  | halted
deriving DecidableEq, Repr

/-- The fields of the STATUS register that are not hardwired (R26). `statusWord` in Flags.lean forms the 16-bit register
from them, its reserved bits 0. -/
structure Status where
  /-- HALTED, bit 0. -/
  halted : Bool
  /-- RGB_VALID, bit 1. -/
  rgbValid : Bool
  /-- FIRST_CAUSE, bits 7:4. -/
  firstCause : Cause
deriving DecidableEq, Repr

/-- What the host can do to the block between two commands (R159). -/
inductive HostInput where
  /-- Issue one command word (R51). -/
  | command (w : CmdWord)
  /-- Apply the reset signal (R170). -/
  | reset
  /-- Read the whole of RGB (R157). -/
  | upload
  /-- Tell of new output dimensions (R156). -/
  | resize (width height : Nat)
  /-- The present trigger fires, the surface active or not (R155, R158). -/
  | presentTick (active : Bool)
deriving DecidableEq, Repr

/-- The state: the block's own (`fb`, `rgb`, `status`), and the model's record of its two channels and of the uploads. -/
structure State where
  /-- FB (R20), by linear offset (R40); an unlisted cell is 0. -/
  fb : Memory
  /-- RGB (R23), by byte offset (R42); an unlisted byte has no value. -/
  rgb : Memory
  /-- STATUS (R26). -/
  status : Status
  /-- What the host does next, in issue order (log entry 1). -/
  inputs : List HostInput
  /-- The responses returned so far, newest first (log entry 2). -/
  responses : List RespWord
  /-- The RGB bytes each upload took, under their offsets, newest first (log entry 3). -/
  uploads : List Memory
deriving DecidableEq, Repr

/-- The step stops with a fault. A fault OF THE BLOCK is not one of these: the block's fault entry is a next state
(R143, `raiseFault`). -/
inductive Fault where
  /-- Raised by an upload while RGB_VALID = 0: the host must not perform one and it has no move (R157, R159, U9). Safe: the
  model stops where the spec gives no value. -/
  | uploadWithoutValue
  /-- Raised by READ_RGB when RGB_VALID = 1 and the byte still has no value, which no run reaches (R23). Safe: the model
  stops instead of naming a value. -/
  | rgbByteWithoutValue
deriving DecidableEq, Repr

/-- The step refuses. -/
inductive Refusal where
  /-- Raised by an arm of `exec` whose instruction has no meaning yet, under the instruction's mnemonic. Safe: no arm raises
  it, since every command has its meaning. -/
  | notModelled (mnemonic : String)
deriving DecidableEq, Repr

/-- What a step or a meaning answers. -/
abbrev Result := Host.Outcome State Fault Refusal

/-- STATUS right after reset: every field 0 (R26, R170). -/
def Status.reset : Status := ⟨false, false, .none⟩

/-- The machine right after reset (R170): every cell of FB 0, no byte of RGB with a value, STATUS 0. The channels and the
record of uploads are empty (log entries 1, 2, 3). -/
def State.reset : State where
  fb := []
  rgb := []
  status := .reset
  inputs := []
  responses := []
  uploads := []

end Sys2Proof.Machine
end

