-- ==== Sys2Proof/Machine/Flags.lean ====
section
/-! DEFINITION. Cause codes (60_exceptions.md R141), the STATUS word and the changes of its fields (10_state.md R26), and the
response word (30_encoding.md R68). -/

namespace Sys2Proof.Machine

/-- The 4-bit code of a cause (R141). -/
def causeCode : Cause → BitVec 4
  | .none => 0#4
  | .illegalCommand => 1#4
  | .cvX => 2#4
  | .cvY => 3#4
  | .cvColor => 4#4
  | .cvIndex => 5#4
  | .rgbRange => 6#4
  | .rgbInvalid => 7#4
  | .halted => 8#4

/-- The 16-bit STATUS register: FIRST_CAUSE in 7:4, RGB_VALID in 1, HALTED in 0, and the reserved bits 15:8 and 3:2
hardwired 0 (R26). -/
def statusWord (st : Status) : BitVec 16 :=
  0#8 ++ causeCode st.firstCause ++ 0#2 ++ BitVec.ofBool st.rgbValid ++ BitVec.ofBool st.halted

/-- STATUS after a fault: HALTED is 1, FIRST_CAUSE is its cause, RGB_VALID keeps its value (R143). -/
def haltStatus (c : Cause) (st : Status) : Status := { st with halted := true, firstCause := c }

/-- STATUS after a CONVERT completes: RGB_VALID is 1, the rest unchanged (R111). -/
def validStatus (st : Status) : Status := { st with rgbValid := true }

/-- The response word: DATA in 23:8, CAUSE in 3:0, every other bit 0 (R68). -/
def respWord (c : Cause) (data : BitVec 16) : RespWord := 0#8 ++ data ++ 0#4 ++ causeCode c

end Sys2Proof.Machine
end

