-- ==== Sys2Proof/Machine/Ops.lean ====
section
/-! DEFINITION. The named operations over the state: the two memories (20_memory.md R40 to R43; the primitives of 00_scope.md
R10), the response channel (30_encoding.md R68), the block's fault entry (60_exceptions.md R143), the halted answer (R144)
and reset, the only way out of the halted state (R146, 70_reset_and_hazards.md R170). -/

namespace Sys2Proof.Machine

/-! ## Memories -/

/-- How many bytes a space holds (R40, R42). -/
def spaceSize : Space → Nat
  | .fb => Config.ncells
  | .rgb => Config.nrgb

/-- What an unlisted offset reads as: in FB the reset value of a cell (R20), in RGB no value (R23). -/
def spaceUnlisted : Space → Option Byte
  | .fb => some Config.fbResetValue
  | .rgb => none

/-- The canonical form of a space's memory: offsets strictly rising and inside the space, and no cell equal to what an
unlisted offset reads as. -/
abbrev Memory.wf (sp : Space) (m : Memory) : Prop :=
  m.Pairwise (fun a b => a.1 < b.1) ∧ ∀ c ∈ m, c.1 < spaceSize sp ∧ some c.2 ≠ spaceUnlisted sp

/-- The byte a memory lists at an offset. -/
def memLookup (a : Nat) : Memory → Option Byte
  | [] => none
  | (k, v) :: m => if k = a then some v else memLookup a m

/-- `MemRead(space, a, 1)` (R10): the listed byte, else what the space's unlisted offsets read as. -/
def memRead (sp : Space) (a : Nat) (m : Memory) : Option Byte :=
  (memLookup a m).or (spaceUnlisted sp)

/-- Put a byte at an offset, in its place in the rising order. -/
def memInsert (a : Nat) (v : Byte) : Memory → Memory
  | [] => [(a, v)]
  | (k, u) :: m =>
      if a < k then (a, v) :: (k, u) :: m
      else if a = k then (a, v) :: m
      else (k, u) :: memInsert a v m

/-- Take an offset off the list. -/
def memErase (a : Nat) (m : Memory) : Memory := m.filter (fun c => decide (c.1 ≠ a))

/-- `MemWrite(space, a, 1, v)` (R10): a byte equal to what an unlisted offset reads as is not listed. -/
def memWrite (sp : Space) (a : Nat) (v : Byte) (m : Memory) : Memory :=
  if some v = spaceUnlisted sp then memErase a m else memInsert a v m

/-- `fb_off(x, y) = y*W + x` (R40). -/
def fbOff (x y : Nat) : Nat := y * Config.width + x

/-- `rgb_off(x, y) = 3*fb_off(x, y)` (R42). -/
def rgbOff (x y : Nat) : Nat := Config.bytesPerPixel * fbOff x y

/-- The cell of FB at a linear offset; every cell has a value (R20). -/
def fbByte (a : Nat) (m : Memory) : Byte := (memLookup a m).getD Config.fbResetValue

/-- `FBRead(x, y)` (R10). -/
def fbRead (x y : Nat) (s : State) : Byte := fbByte (fbOff x y) s.fb

/-- `FBWrite(x, y, v)` (R10) on FB's contents. -/
def fbPut (x y : Nat) (v : Byte) (m : Memory) : Memory := memWrite .fb (fbOff x y) v m

/-- `RGBRead(i)` (R10); no value where RGB lists none. -/
def rgbRead (i : Nat) (s : State) : Option Byte := memRead .rgb i s.rgb

/-! ## State updates -/

/-- Replace FB's contents. -/
def setFb (m : Memory) (s : State) : State := { s with fb := m }

/-- Replace RGB's contents. -/
def setRgb (m : Memory) (s : State) : State := { s with rgb := m }

/-- Replace STATUS. -/
def setStatus (st : Status) (s : State) : State := { s with status := st }

/-- Replace what the host does next. -/
def setInputs (l : List HostInput) (s : State) : State := { s with inputs := l }

/-- `resp <- (cause, data)` (R10, R68): return one response word. -/
def respond (c : Cause) (data : BitVec 16) (s : State) : State :=
  { s with responses := respWord c data :: s.responses }

/-- An upload reads every byte of RGB and changes nothing of the block (R157). -/
def recordUpload (s : State) : State := { s with uploads := s.rgb :: s.uploads }

/-! ## Faults and reset -/

/-- `raise Fault(cause)` (R143): HALTED and FIRST_CAUSE are written, the response is `(cause, 0)`, nothing else changes. -/
def raiseFault (c : Cause) (s : State) : State := respond c 0#16 (setStatus (haltStatus c s.status) s)

/-- The answer of a halted block: `(8, 0)` and no change (R144). -/
def haltedReply (s : State) : State := respond .halted 0#16 s

/-- Reset (R170): FB, RGB and STATUS take their reset values, whatever they held. It is the return from a fault: the block
has no other (R146). The channels' records are the host's and stay (log entry 9). -/
def applyReset (s : State) : State :=
  { s with fb := State.reset.fb, rgb := State.reset.rgb, status := State.reset.status }

/-- The order R145 gives every command but READ_STATUS: a halted block answers HALTED; else the first check that fails
raises its fault; else the command runs. -/
def serve (check : State → Option Cause) (run : State → Result) (s : State) : Result :=
  if s.status.halted then .next (haltedReply s)
  else
    match check s with
    | some c => .next (raiseFault c s)
    | none => run s

/-- A word that is no command (R70, R145): HALTED if the block is halted, else ILLEGAL_COMMAND. -/
def execIllegal (s : State) : Result :=
  serve (fun _ => some .illegalCommand) (fun t => .next t) s

end Sys2Proof.Machine
end

