-- ==== Sys2Proof/Machine/Operands.lean ====
section
/-! DEFINITION. The operand and state checks of 60_exceptions.md R145 steps 4 and 5, each answering the cause it raises, and
their chains per format, in field order. -/

namespace Sys2Proof.Machine

/-- The cause `c` unless the condition holds. -/
def require (ok : Bool) (c : Cause) : Option Cause := if ok then none else some c

/-- An x operand is below W, else CV_X. -/
def checkX (x : Nat) : Option Cause := require (decide (x < Config.width)) .cvX

/-- A y operand is below H, else CV_Y. -/
def checkY (y : Nat) : Option Cause := require (decide (y < Config.height)) .cvY

/-- A colour operand is at most 15, else CV_COLOR. -/
def checkColor (c : Nat) : Option Cause := require (decide (c ≤ Config.indexMax)) .cvColor

/-- An RGB offset is below NRGB, else RGB_RANGE. -/
def checkOff (off : Nat) : Option Cause := require (decide (off < Config.nrgb)) .rgbRange

/-- RGB holds values, else RGB_INVALID. -/
def checkValid (st : Status) : Option Cause := require st.rgbValid .rgbInvalid

/-- Every cell of FB is a palette index, else CV_INDEX (R111). An unlisted cell is 0 and passes, so reading the listed
offsets of the space is reading every cell that can fail (log entry 13). -/
def checkIndices (m : Memory) : Option Cause :=
  require (m.all (fun c => !decide (c.1 < Config.ncells) || decide ((fbByte c.1 m).toNat ≤ Config.indexMax))) .cvIndex

/-- X0, then Y0 (formats L, P, P0). -/
def checkPoint (x y : Nat) : Option Cause := (checkX x).or (checkY y)

/-- X0, Y0, C (format P). -/
def checkPointColor (x y c : Nat) : Option Cause := (checkPoint x y).or (checkColor c)

/-- X0, Y0, X1, Y1, C (format L). -/
def checkLine (x0 y0 x1 y1 c : Nat) : Option Cause :=
  (checkPoint x0 y0).or ((checkPoint x1 y1).or (checkColor c))

end Sys2Proof.Machine
end

