-- ==== Sys2Proof/Machine/FramebufferAccess.lean ====
section
/-! DEFINITION. PLOT and READ_PIXEL (40_framebuffer_access.md R80, R81). -/

namespace Sys2Proof.Machine

/-- PLOT (R80): after the checks, `FB[x, y] <- c` and the response `(0, 0)`. -/
def execPlot (x y c : Nat) (s : State) : Result :=
  serve (fun _ => checkPointColor x y c)
    (fun t => .next (respond .none 0#16 (setFb (fbPut x y (BitVec.ofNat 8 c) t.fb) t))) s

/-- READ_PIXEL (R81): after the checks, the response `(0, FB[x, y])`. -/
def execReadPixel (x y : Nat) (s : State) : Result :=
  serve (fun _ => checkPoint x y)
    (fun t => .next (respond .none ((fbRead x y t).setWidth 16) t)) s

end Sys2Proof.Machine
end

