-- ==== Sys2Proof/Machine/Palette.lean ====
section
/-! DEFINITION. CONVERT and READ_RGB (42_palette_conversion.md R110 to R112). -/

namespace Sys2Proof.Machine

/-- `pal(i)` for `i` in 0..15 (R110). -/
def pal (i : BitVec 4) : Config.Triple := Config.palette[i.toFin]

/-- The palette index a cell holds; a cell that passed CONVERT's check is 0..15, so its low four bits are all of it (R21). -/
def cellIndex (v : Byte) : BitVec 4 := v.setWidth 4

/-- The three writes of CONVERT's second loop for the cell at offset `o` (R111): R, G, B at `3*o`, `3*o + 1`, `3*o + 2`. -/
def tripleCells (o : Nat) (t : Config.Triple) : Memory :=
  [(Config.bytesPerPixel * o, t.r), (Config.bytesPerPixel * o + 1, t.g), (Config.bytesPerPixel * o + 2, t.b)]

/-- Component `j` of a triple (R113): `[0]` is R, `[1]` is G, `[2]` is B. -/
def tripleByte (t : Config.Triple) : Nat → Byte
  | 0 => t.r
  | 1 => t.g
  | _ => t.b

/-- The bytes CONVERT writes for `n` cells of FB from offset `o` on, in offset order. -/
def convRange (fb : Memory) (o n : Nat) : Memory :=
  (List.range' o n).flatMap (fun k => tripleCells k (pal (cellIndex (fbByte k fb))))

/-- `conv(FB)` (R113): RGB as a completed CONVERT leaves it, every one of its bytes listed, in offset order. It is a function
of FB and PALETTE alone (log entry 15). -/
def conv (fb : Memory) : Memory := convRange fb 0 Config.ncells

/-- CONVERT (R111): after the check of every cell, `RGB <- conv(FB)`, `RGB_VALID <- 1` and the response `(0, 0)`. -/
def execConvert (s : State) : Result :=
  serve (fun t => checkIndices t.fb)
    (fun t => .next (respond .none 0#16 (setStatus (validStatus t.status) (setRgb (conv t.fb) t)))) s

/-- READ_RGB (R112): after the range check and the validity check, the response `(0, RGB[off])`. -/
def execReadRgb (off : Nat) (s : State) : Result :=
  serve (fun t => (checkOff off).or (checkValid t.status))
    (fun t =>
      match rgbRead off t with
      | some v => .next (respond .none (v.setWidth 16) t)
      | none => .fault .rgbByteWithoutValue) s

end Sys2Proof.Machine
end

