-- ==== Sys2Proof/Machine/Rasterizer.lean ====
section
/-! DEFINITION. DRAW_LINE (41_line_rasterizer.md R90): the deltas, the working values of 10_state.md R27, the two loops, the
pixels in write order, and the command. Arithmetic is on ℤ (R9); magnitudes are natural numbers. -/

namespace Sys2Proof.Machine

/-- Step 1 of R90: magnitudes and signs of the deltas. -/
structure Deltas where
  dxabs : Nat
  dyabs : Nat
  sdx : Int
  sdy : Int
deriving DecidableEq, Repr

/-- The working values that change (R27): the accumulators and the plot position. -/
structure Raster where
  ex : Int
  ey : Int
  px : Int
  py : Int
deriving DecidableEq, Repr

/-- `dxabs`, `dyabs`, `sdx`, `sdy` of R90 step 1, with `sign(0) = 0` (R9). -/
def lineDeltas (x0 y0 x1 y1 : Nat) : Deltas where
  dxabs := ((x1 : Int) - x0).natAbs
  dyabs := ((y1 : Int) - y0).natAbs
  sdx := ((x1 : Int) - x0).sign
  sdy := ((y1 : Int) - y0).sign

/-- Step 2 of R90: each accumulator starts at half the OTHER delta, rounded down; the position is the start point. -/
def rasterStart (x0 y0 : Nat) (d : Deltas) : Raster where
  ex := ((d.dyabs / 2 : Nat) : Int)
  ey := ((d.dxabs / 2 : Nat) : Int)
  px := x0
  py := y0

/-- One iteration of step 4 of R90, up to its `FBWrite`. -/
def stepHorizontal (d : Deltas) (r : Raster) : Raster :=
  if r.ey + d.dyabs ≥ d.dxabs then
    { r with ey := r.ey + d.dyabs - d.dxabs, px := r.px + d.sdx, py := r.py + d.sdy }
  else
    { r with ey := r.ey + d.dyabs, px := r.px + d.sdx }

/-- One iteration of step 5 of R90, up to its `FBWrite`; the test is `>=` here too (90_conflicts.md C3). -/
def stepVertical (d : Deltas) (r : Raster) : Raster :=
  if r.ex + d.dxabs ≥ d.dyabs then
    { r with ex := r.ex + d.dxabs - d.dyabs, px := r.px + d.sdx, py := r.py + d.sdy }
  else
    { r with ex := r.ex + d.dxabs, py := r.py + d.sdy }

/-- The working values after each of `n` iterations. -/
def rasterRun (f : Raster → Raster) : Nat → Raster → List Raster
  | 0, _ => []
  | n + 1, r => f r :: rasterRun f n (f r)

/-- The working values at each `FBWrite` of R90: the start, then each iteration of the branch taken; the tie
`dxabs = dyabs` takes the horizontal branch. -/
def lineRasters (x0 y0 x1 y1 : Nat) : List Raster :=
  let d := lineDeltas x0 y0 x1 y1
  let r := rasterStart x0 y0 d
  r :: (if d.dxabs ≥ d.dyabs then rasterRun (stepHorizontal d) d.dxabs r else rasterRun (stepVertical d) d.dyabs r)

/-- The pixels of a line in write order (R90). -/
def linePixels (x0 y0 x1 y1 : Nat) : List (Int × Int) :=
  (lineRasters x0 y0 x1 y1).map (fun r => (r.px, r.py))

/-- `FBWrite(px, py, v)` for each pixel, in order. The pixels of a line between legal endpoints are cells of FB (R94; log
entry 14). -/
def fbPutAll (ps : List (Int × Int)) (v : Byte) (m : Memory) : Memory :=
  ps.foldl (fun m p => fbPut p.1.toNat p.2.toNat v m) m

/-- `M = max(dxabs, dyabs)` (R91). -/
def majorLength (x0 y0 x1 y1 : Nat) : Nat :=
  max (lineDeltas x0 y0 x1 y1).dxabs (lineDeltas x0 y0 x1 y1).dyabs

/-- `m = min(dxabs, dyabs)` (R91). -/
def minorLength (x0 y0 x1 y1 : Nat) : Nat :=
  min (lineDeltas x0 y0 x1 y1).dxabs (lineDeltas x0 y0 x1 y1).dyabs

/-- The minor-axis offset at major step `k` in the closed form of R95: `((M div 2) + k*m) div M`, and 0 for `M = 0`. -/
def minorOffset (major minor k : Nat) : Nat := (major / 2 + k * minor) / major

/-- The k-th pixel of R95's closed form. Statements use it; DRAW_LINE itself runs R90's loop. -/
def closedPixel (x0 y0 x1 y1 k : Nat) : Int × Int :=
  let d := lineDeltas x0 y0 x1 y1
  let off : Int := ((minorOffset (majorLength x0 y0 x1 y1) (minorLength x0 y0 x1 y1) k : Nat) : Int)
  if d.dxabs ≥ d.dyabs then (x0 + d.sdx * k, y0 + d.sdy * off) else (x0 + d.sdx * off, y0 + d.sdy * k)

/-- DRAW_LINE (R90): after the checks, every pixel of the line `<- c` and the response `(0, 0)`. -/
def execDrawLine (x0 y0 x1 y1 c : Nat) (s : State) : Result :=
  serve (fun _ => checkLine x0 y0 x1 y1 c)
    (fun t => .next (respond .none 0#16 (setFb (fbPutAll (linePixels x0 y0 x1 y1) (BitVec.ofNat 8 c) t.fb) t))) s

end Sys2Proof.Machine
end

