-- ==== Sys2Proof/Machine/StatusCommand.lean ====
section
/-! DEFINITION. READ_STATUS (43_status.md R130). -/

namespace Sys2Proof.Machine

/-- READ_STATUS (R130): the response `(0, STATUS)`, whether or not the block is halted; nothing else changes. -/
def execReadStatus (s : State) : Result := .next (respond .none (statusWord s.status) s)

end Sys2Proof.Machine
end

