-- ==== Sys2Proof/Machine/Dispatch.lean ====
section
/-! DEFINITION. One arm per command: its meaning. -/

namespace Sys2Proof.Machine

/-- The meaning of a decoded command. -/
def exec (i : Instr) (s : State) : Host.Outcome State Fault Refusal :=
  match i with
  | .plot x y c => Sys2Proof.Machine.execPlot x y c s
  | .readPixel x y => Sys2Proof.Machine.execReadPixel x y s
  | .drawLine x0 y0 x1 y1 c => Sys2Proof.Machine.execDrawLine x0 y0 x1 y1 c s
  | .convert => Sys2Proof.Machine.execConvert s
  | .readRgb off => Sys2Proof.Machine.execReadRgb off s
  | .readStatus => Sys2Proof.Machine.execReadStatus s

end Sys2Proof.Machine
end

