-- ==== Sys2Proof/Machine/HostMoves.lean ====
section
/-! DEFINITION. What each move of the host does (60_exceptions.md R145, R155 to R159; 70_reset_and_hazards.md R170). -/

namespace Sys2Proof.Machine

/-- One command word: the command it decodes to, or the answer to an illegal word (R69, R70, R145). -/
def commandMove (w : CmdWord) (s : State) : Result :=
  match decodeWord w with
  | .ok i => exec i s
  | .error _ => execIllegal s

/-- An upload (R157): it takes RGB as it stands, halted or not; before the first CONVERT it has no move. -/
def uploadMove (s : State) : Result :=
  if s.status.rgbValid then .next (recordUpload s) else .fault .uploadWithoutValue

/-- A present tick (R155): on an active surface the host issues CONVERT and then uploads; else it issues nothing. -/
def tickMove (active : Bool) (s : State) : State :=
  if active then setInputs (.command (encode .convert) :: .upload :: s.inputs) s else s

/-- One move of the host (R159). A resize changes nothing (R156). -/
def hostMove (h : HostInput) (s : State) : Result :=
  match h with
  | .command w => commandMove w s
  | .reset => .next (applyReset s)
  | .upload => uploadMove s
  | .resize _ _ => .next s
  | .presentTick active => .next (tickMove active s)

/-- The machine's step: the host's next move, taken off the channel; while the host sends nothing, nothing changes (R154,
R171; log entry 4). -/
def nextMove (s : State) : Result :=
  match s.inputs with
  | [] => .next s
  | h :: rest => hostMove h (setInputs rest s)

/-- The host's issue of a sequence of command words, in order (R31). -/
def issueWords (ws : List CmdWord) (s : State) : State :=
  setInputs (ws.map HostInput.command ++ s.inputs) s

end Sys2Proof.Machine
end

