-- ==== Sys2Proof/Machine/Assembler.lean ====
section
/-! DEFINITION. The textual form of commands (30_encoding.md R71) and the pseudo-instructions (R72). A line is a mnemonic and
comma-separated numbers; log entry 17 says what R71 leaves open about blanks, letter case and lines. -/

namespace Sys2Proof.Machine

/-- The expansions of R72. -/
def expandPseudo : Pseudo → List Instr
  | .hline y xa xb c => [.drawLine xa y xb y c]
  | .vline x ya yb c => [.drawLine x ya x yb c]
  | .readRgbPixel x y => [.readRgb (rgbOff x y), .readRgb (rgbOff x y + 1), .readRgb (rgbOff x y + 2)]

/-- Characters that separate a mnemonic from its operands. -/
def isBlank (c : Char) : Bool := c == ' ' || c == '\t' || c == '\r'

/-- A line without its comment, which a `;` starts (R71). -/
def stripComment (cs : List Char) : List Char := cs.takeWhile (fun c => c != ';')

/-- A text without the blanks at its two ends. -/
def trimBlanks (cs : List Char) : List Char := ((cs.dropWhile isBlank).reverse.dropWhile isBlank).reverse

/-- The value of a digit in a base up to 16. -/
def digitValue (base : Nat) (c : Char) : Option Nat :=
  let v : Nat :=
    if '0' ≤ c ∧ c ≤ '9' then c.toNat - '0'.toNat
    else if 'a' ≤ c ∧ c ≤ 'f' then c.toNat - 'a'.toNat + 10
    else if 'A' ≤ c ∧ c ≤ 'F' then c.toNat - 'A'.toNat + 10
    else 16
  if v < base then some v else none

/-- The number a digit text spells, `acc` being the value of the digits before it. -/
def parseDigits (base : Nat) : Nat → List Char → Option Nat
  | acc, [] => some acc
  | acc, c :: cs =>
      match digitValue base c with
      | some d => parseDigits base (base * acc + d) cs
      | none => none

/-- A decimal or `0x`-prefixed hexadecimal number (R71). -/
def parseNumber : List Char → Option Nat
  | [] => none
  | '0' :: 'x' :: c :: cs => parseDigits 16 0 (c :: cs)
  | c :: cs => parseDigits 10 0 (c :: cs)

/-- The texts between commas. -/
def splitCommas : List Char → List (List Char)
  | [] => [[]]
  | c :: cs =>
      match splitCommas cs with
      | [] => [[c]]
      | p :: ps => if c == ',' then [] :: p :: ps else (c :: p) :: ps

/-- All the numbers of a list of texts, or none if one of them is no number. -/
def parseAll : List (List Char) → Option (List Nat)
  | [] => some []
  | t :: ts =>
      match parseNumber (trimBlanks t), parseAll ts with
      | some n, some ns => some (n :: ns)
      | _, _ => none

/-- A command's operands (R71). -/
def parseOperands (cs : List Char) : Option (List Nat) :=
  if trimBlanks cs = [] then some [] else parseAll (splitCommas cs)

/-- The commands of a mnemonic or pseudo-instruction with its operands in the order of R71 and R72. -/
def commandsNamed (mnemonic : String) (ops : List Nat) : Option (List Instr) :=
  match mnemonic, ops with
  | "PLOT", [x, y, c] => some [.plot x y c]
  | "READ_PIXEL", [x, y] => some [.readPixel x y]
  | "DRAW_LINE", [x0, y0, x1, y1, c] => some [.drawLine x0 y0 x1 y1 c]
  | "CONVERT", [] => some [.convert]
  | "READ_RGB", [off] => some [.readRgb off]
  | "READ_STATUS", [] => some [.readStatus]
  | "HLINE", [y, xa, xb, c] => some (expandPseudo (.hline y xa xb c))
  | "VLINE", [x, ya, yb, c] => some (expandPseudo (.vline x ya yb c))
  | "READ_RGB_PIXEL", [x, y] => some (expandPseudo (.readRgbPixel x y))
  | _, _ => none

/-- The words of some commands, none if an operand does not fit its field (R71). -/
def assembleAll : List Instr → Option (List CmdWord)
  | [] => some []
  | i :: is =>
      match assembleInstr i, assembleAll is with
      | some w, some ws => some (w :: ws)
      | _, _ => none

/-- The words of one line of text; a line that holds only blanks or a comment has none. -/
def assembleLine (line : String) : Option (List CmdWord) :=
  let cs := trimBlanks (stripComment line.toList)
  let mnemonic := cs.takeWhile (fun c => !isBlank c)
  if cs = [] then some []
  else
    match parseOperands (cs.drop mnemonic.length) with
    | some ops => (commandsNamed (String.ofList mnemonic) ops).bind assembleAll
    | none => none

end Sys2Proof.Machine
end

