-- ==== Sys2Proof/Safety.lean ====
section
/-! DEFINITION. What every state between two steps satisfies, and what counts as a safe run, in the terms the claims use
(10_state.md R20 to R26; 70_reset_and_hazards.md R178). -/

namespace Sys2Proof.Machine

/-- FB is in canonical form, and every cell holds 0..15 (R20, R21). -/
abbrev fbOk (m : Memory) : Prop := Memory.wf .fb m ∧ ∀ c ∈ m, c.2.toNat ≤ Config.indexMax

/-- Every byte of the memory has a value (R23 after a CONVERT). -/
abbrev rgbFull (m : Memory) : Prop := ∀ i, i < Config.nrgb → (memRead .rgb i m).isSome = true

/-- RGB is in canonical form; it is full when RGB_VALID is 1 and has no value at all when it is 0 (R23, R26). -/
abbrev rgbOk (valid : Bool) (m : Memory) : Prop :=
  Memory.wf .rgb m ∧ (valid = true → rgbFull m) ∧ (valid = false → m = [])

/-- FIRST_CAUSE is never 8, and is 0 exactly when HALTED is 0 (R26). -/
abbrev statusOk (st : Status) : Prop :=
  st.firstCause ≠ .halted ∧ (st.firstCause = .none ↔ st.halted = false)

/-- Every recorded upload took all of RGB's bytes (R157). -/
abbrev uploadsOk (us : List Memory) : Prop := ∀ u ∈ us, Memory.wf .rgb u ∧ rgbFull u

/-- The invariant of the machine. -/
abbrev State.Inv (s : State) : Prop :=
  fbOk s.fb ∧ rgbOk s.status.rgbValid s.rgb ∧ statusOk s.status ∧ uploadsOk s.uploads

/-- The host keeps its duty at its next move: it uploads only when a CONVERT has completed since reset (R159). -/
abbrev hostDuty (s : State) : Prop := s.inputs.head? = some .upload → s.status.rgbValid = true

/-- Two states agree on the block's own state: FB, RGB and STATUS. -/
abbrev sameBlock (s t : State) : Prop := t.fb = s.fb ∧ t.rgb = s.rgb ∧ t.status = s.status

/-- A run that contains no fault so far: the premise R178 gives claims about a run. -/
abbrev faultFree (s : State) : Prop := s.status.halted = false

/-- `n` steps, one after the other, up to the first stop (R178). -/
def runSteps : Nat → State → Result
  | 0, s => .next s
  | n + 1, s =>
      match step s with
      | .next t => runSteps n t
      | .fault r => .fault r
      | .refused r => .refused r

/-- The host's move writes no cell of FB: it is no reset, and no word of PLOT or DRAW_LINE (R22). -/
abbrev leavesFb (h : HostInput) : Prop :=
  h ≠ .reset ∧ ∀ w, h = .command w →
    (∀ x y c, decodeWord w ≠ .ok (.plot x y c)) ∧ ∀ x0 y0 x1 y1 c, decodeWord w ≠ .ok (.drawLine x0 y0 x1 y1 c)

/-- The host's move writes not the cell of FB at offset `a`: it is no word of a PLOT of that cell, and no word of a DRAW_LINE
with a pixel there (R22). -/
abbrev leavesCell (a : Nat) (h : HostInput) : Prop :=
  ∀ w, h = .command w →
    (∀ x y c, decodeWord w = .ok (.plot x y c) → fbOff x y ≠ a) ∧
    ∀ x0 y0 x1 y1 c, decodeWord w = .ok (.drawLine x0 y0 x1 y1 c) →
      ∀ p ∈ linePixels x0 y0 x1 y1, fbOff p.1.toNat p.2.toNat ≠ a

end Sys2Proof.Machine
end

