-- ==== Sys2Proof/Certificates/Slice0/Obligations.lean ====
section
/-! DEFINITION. The statements for the provers, in the order of the spec's files: encoding, command words against their
rules, completion of each command with its frame, the step and the host's moves, faults, invariants, the rasterizer's
properties, the converter's properties. -/

open Sys2Proof Sys2Proof.Machine

/-! ## Encoding (30_encoding.md, 20_memory.md) -/

/-- R73: the worked encodings, from text to word and from word to command. -/
def Obligations.WorkedEncodingsHold : Prop :=
  (assembleLine "DRAW_LINE 0, 100, 319, 100, 10" = some [0x0000029927EC8003#64] ∧
    decodeWord 0x0000029927EC8003#64 = .ok (.drawLine 0 100 319 100 10)) ∧
  (assembleLine "DRAW_LINE 160, 0, 160, 199, 11" = some [0x000002F1D4000A03#64] ∧
    decodeWord 0x000002F1D4000A03#64 = .ok (.drawLine 160 0 160 199 11)) ∧
  (assembleLine "PLOT 5, 7, 12" = some [0x000003000000E051#64] ∧
    decodeWord 0x000003000000E051#64 = .ok (.plot 5 7 12)) ∧
  (assembleLine "READ_RGB 191999" = some [0x00000000002EDFF5#64] ∧
    decodeWord 0x00000000002EDFF5#64 = .ok (.readRgb 191999)) ∧
  (assembleLine "CONVERT" = some [0x0000000000000004#64] ∧
    decodeWord 0x0000000000000004#64 = .ok .convert) ∧
  (assembleLine "READ_STATUS" = some [0x0000000000000006#64] ∧
    decodeWord 0x0000000000000006#64 = .ok .readStatus)

/-- R61 to R67: decoding the encoding of a command whose operands fit their fields gives the command back. -/
def Obligations.DecodeInvertsEncode : Prop :=
  ∀ i : Instr, i.wf = true → decodeWord (encode i) = .ok i

/-- R61 to R67: a word that decodes to a command is that command's encoding, and the command's operands fit their fields. -/
def Obligations.EncodeInvertsDecode : Prop :=
  ∀ (w : CmdWord) (i : Instr), decodeWord w = .ok i → i.wf = true ∧ encode i = w

/-- R69: at most one row matches a word; the matching row gives the command; a word no row matches is illegal. -/
def Obligations.AtMostOneRowMatches : Prop :=
  ∀ w : CmdWord,
    (∀ r ∈ opcodeRows, ∀ q ∈ opcodeRows, w &&& r.mask = r.pattern → w &&& q.mask = q.pattern → r = q) ∧
    (∀ r ∈ opcodeRows, w &&& r.mask = r.pattern → decodeWord w = .ok (operandsOf w r.op)) ∧
    ((∀ r ∈ opcodeRows, w &&& r.mask ≠ r.pattern) → ∃ e, decodeWord w = .error e)

/-- R70: a word is illegal exactly when its OP is 0x0 or 0x7..0xF, or a must-be-zero bit of its format is 1 (the formats of
R62 to R65); and an illegal word raises ILLEGAL_COMMAND when the block is not halted. -/
def Obligations.IllegalWordsAreTheReservedOnes : Prop :=
  ∀ w : CmdWord,
    ((∃ e, decodeWord w = .error e) ↔
      w.extractLsb' 0 4 = 0#4 ∨ 7 ≤ (w.extractLsb' 0 4).toNat ∨
      (w.extractLsb' 0 4 = 1#4 ∧ (w.extractLsb' 46 18 ≠ 0#18 ∨ w.extractLsb' 21 17 ≠ 0#17)) ∨
      (w.extractLsb' 0 4 = 2#4 ∧ w.extractLsb' 21 43 ≠ 0#43) ∨
      (w.extractLsb' 0 4 = 3#4 ∧ w.extractLsb' 46 18 ≠ 0#18) ∨
      (w.extractLsb' 0 4 = 4#4 ∧ w.extractLsb' 4 60 ≠ 0#60) ∨
      (w.extractLsb' 0 4 = 5#4 ∧ w.extractLsb' 22 42 ≠ 0#42) ∨
      (w.extractLsb' 0 4 = 6#4 ∧ w.extractLsb' 4 60 ≠ 0#60)) ∧
    (∀ (s : State) (e : DecodeError), decodeWord w = .error e → s.status.halted = false →
      commandMove w s = .next (raiseFault .illegalCommand s))

/-- R45: command and response words travel with the byte of bits 7:0 first, and the decoder reads from a byte sequence the
word whose bytes stand at its head. -/
def Obligations.WordsTravelLittleEndian : Prop :=
  (∀ (w : CmdWord) (k : Nat), k < 8 → (cmdBytes w)[k]? = some (w.extractLsb' (8 * k) 8)) ∧
  (∀ (r : RespWord) (k : Nat), k < 4 → (respBytes r)[k]? = some (r.extractLsb' (8 * k) 8)) ∧
  (∀ (w : CmdWord) (rest : List Byte),
    decodeBytes (cmdBytes w ++ rest) = (decodeWord w).map (fun i => (i, rest)))

/-- R72: the pseudo-instructions' expansions; the three offsets of READ_RGB_PIXEL are in range for an in-range pixel; HLINE
and VLINE plot exactly the cells between their ends. -/
def Obligations.PseudoInstructionsExpand : Prop :=
  (∀ x y : Nat,
    expandPseudo (.readRgbPixel x y) =
      [.readRgb (3 * (y * 320 + x)), .readRgb (3 * (y * 320 + x) + 1), .readRgb (3 * (y * 320 + x) + 2)] ∧
    (x ≤ 319 → y ≤ 199 → 3 * (y * 320 + x) + 2 < Config.nrgb)) ∧
  (∀ y xa xb c : Nat, expandPseudo (.hline y xa xb c) = [.drawLine xa y xb y c] ∧
    ∀ p : Int × Int, p ∈ linePixels xa y xb y ↔ ∃ x : Nat, min xa xb ≤ x ∧ x ≤ max xa xb ∧ p = ((x : Int), (y : Int))) ∧
  (∀ x ya yb c : Nat, expandPseudo (.vline x ya yb c) = [.drawLine x ya x yb c] ∧
    ∀ p : Int × Int, p ∈ linePixels x ya x yb ↔ ∃ y : Nat, min ya yb ≤ y ∧ y ≤ max ya yb ∧ p = ((x : Int), (y : Int)))

/-- R40: the offsets of FB's cells run 0..63999 with no gaps, one cell each. -/
def Obligations.CellOffsetsHaveNoGaps : Prop :=
  (∀ x y : Nat, fbOff x y = y * 320 + x) ∧
  (∀ x y : Nat, x < 320 → y < 200 → fbOff x y < 64000) ∧
  (∀ o : Nat, o < 64000 → ∃ x y : Nat, (x < 320 ∧ y < 200 ∧ fbOff x y = o) ∧
    ∀ x' y' : Nat, x' < 320 → y' < 200 → fbOff x' y' = o → x' = x ∧ y' = y)

/-! ## Each command word against its rule (R80, R81, R90, R111, R112, R130, R145) -/

/-- R80: PLOT as its pseudocode has it, on every word with OP = 0x1; FB after it, cell by cell; and writing the value a cell
already holds changes nothing. -/
def Obligations.PlotWordFollowsItsRule : Prop :=
  (∀ (w : CmdWord) (s : State), w.extractLsb' 0 4 = 1#4 →
    commandMove w s =
      if s.status.halted = true then .next (respond .halted 0#16 s)
      else if w &&& 0xFFFFC03FFFE0000F#64 ≠ 0x1#64 then .next (raiseFault .illegalCommand s)
      else if Config.width ≤ (w.extractLsb' 4 9).toNat then .next (raiseFault .cvX s)
      else if Config.height ≤ (w.extractLsb' 13 8).toNat then .next (raiseFault .cvY s)
      else if 15 < (w.extractLsb' 38 8).toNat then .next (raiseFault .cvColor s)
      else .next (respond .none 0#16
        (setFb (memWrite .fb ((w.extractLsb' 13 8).toNat * Config.width + (w.extractLsb' 4 9).toNat)
          (w.extractLsb' 38 8) s.fb) s))) ∧
  (∀ (m : Memory) (a b : Nat) (v : Byte), fbByte b (memWrite .fb a v m) = if b = a then v else fbByte b m) ∧
  (∀ (m : Memory) (a : Nat), Memory.wf .fb m → a < Config.ncells → memWrite .fb a (fbByte a m) m = m)

/-- R81: READ_PIXEL as its pseudocode has it, on every word with OP = 0x2; the value is 0..15 in every state the invariant
holds of. A cell no command has written since reset is 0: it is 0 in the reset state and after a reset of any state, and a
move of the host that does not write it leaves a cell that is 0 at 0. -/
def Obligations.ReadPixelWordFollowsItsRule : Prop :=
  (∀ (w : CmdWord) (s : State), w.extractLsb' 0 4 = 2#4 →
    commandMove w s =
      if s.status.halted = true then .next (respond .halted 0#16 s)
      else if w &&& 0xFFFFFFFFFFE0000F#64 ≠ 0x2#64 then .next (raiseFault .illegalCommand s)
      else if Config.width ≤ (w.extractLsb' 4 9).toNat then .next (raiseFault .cvX s)
      else if Config.height ≤ (w.extractLsb' 13 8).toNat then .next (raiseFault .cvY s)
      else .next (respond .none
        ((fbByte ((w.extractLsb' 13 8).toNat * Config.width + (w.extractLsb' 4 9).toNat) s.fb).setWidth 16) s)) ∧
  (∀ (s : State) (a : Nat), s.Inv → (fbByte a s.fb).toNat ≤ 15) ∧
  (∀ a : Nat, fbByte a State.reset.fb = 0#8) ∧
  (∀ (s t : State) (a : Nat), hostMove .reset s = .next t → fbByte a t.fb = 0#8) ∧
  (∀ (h : HostInput) (s t : State) (a : Nat), hostMove h s = .next t → leavesCell a h → fbByte a s.fb = 0#8 →
    fbByte a t.fb = 0#8)

/-- R90: DRAW_LINE as its pseudocode has it, on every word with OP = 0x3: the checks in order, then the pixels in order; and
the pixels are the plot positions of the two loops, started and stepped as the pseudocode says. -/
def Obligations.DrawLineWordFollowsItsRule : Prop :=
  (∀ (w : CmdWord) (s : State), w.extractLsb' 0 4 = 3#4 →
    commandMove w s =
      if s.status.halted = true then .next (respond .halted 0#16 s)
      else if w &&& 0xFFFFC0000000000F#64 ≠ 0x3#64 then .next (raiseFault .illegalCommand s)
      else if Config.width ≤ (w.extractLsb' 4 9).toNat then .next (raiseFault .cvX s)
      else if Config.height ≤ (w.extractLsb' 13 8).toNat then .next (raiseFault .cvY s)
      else if Config.width ≤ (w.extractLsb' 21 9).toNat then .next (raiseFault .cvX s)
      else if Config.height ≤ (w.extractLsb' 30 8).toNat then .next (raiseFault .cvY s)
      else if 15 < (w.extractLsb' 38 8).toNat then .next (raiseFault .cvColor s)
      else .next (respond .none 0#16
        (setFb ((linePixels (w.extractLsb' 4 9).toNat (w.extractLsb' 13 8).toNat (w.extractLsb' 21 9).toNat
            (w.extractLsb' 30 8).toNat).foldl
          (fun m p => memWrite .fb (p.2.toNat * Config.width + p.1.toNat) (w.extractLsb' 38 8) m) s.fb) s))) ∧
  (∀ x0 y0 x1 y1 dxabs dyabs : Nat, ∀ dx dy : Int,
    dx = (x1 : Int) - x0 → dy = (y1 : Int) - y0 → (dxabs : Int) = |dx| → (dyabs : Int) = |dy| →
    ∃ ex ey px py : Nat → Int,
      ex 0 = ((dyabs / 2 : Nat) : Int) ∧ ey 0 = ((dxabs / 2 : Nat) : Int) ∧ px 0 = x0 ∧ py 0 = y0 ∧
      linePixels x0 y0 x1 y1 =
        (List.range ((if dyabs ≤ dxabs then dxabs else dyabs) + 1)).map (fun k => (px k, py k)) ∧
      (dyabs ≤ dxabs → ∀ k, k < dxabs →
        px (k + 1) = px k + dx.sign ∧
        (if (dxabs : Int) ≤ ey k + dyabs then ey (k + 1) = ey k + dyabs - dxabs ∧ py (k + 1) = py k + dy.sign
         else ey (k + 1) = ey k + dyabs ∧ py (k + 1) = py k)) ∧
      (dxabs < dyabs → ∀ k, k < dyabs →
        py (k + 1) = py k + dy.sign ∧
        (if (dyabs : Int) ≤ ex k + dxabs then ex (k + 1) = ex k + dxabs - dyabs ∧ px (k + 1) = px k + dx.sign
         else ex (k + 1) = ex k + dxabs ∧ px (k + 1) = px k)))

/-- R111: CONVERT as its pseudocode has it, on every word with OP = 0x4: CV_INDEX over every cell before any write; else
every byte of RGB written from PALETTE, and RGB_VALID set. -/
def Obligations.ConvertWordFollowsItsRule : Prop :=
  ∀ (w : CmdWord) (s : State), w.extractLsb' 0 4 = 4#4 →
    (s.status.halted = true → commandMove w s = .next (respond .halted 0#16 s)) ∧
    (s.status.halted = false → w ≠ 0x4#64 → commandMove w s = .next (raiseFault .illegalCommand s)) ∧
    (s.status.halted = false → w = 0x4#64 → (∃ o, o < Config.ncells ∧ 15 < (fbByte o s.fb).toNat) →
      commandMove w s = .next (raiseFault .cvIndex s)) ∧
    (s.status.halted = false → w = 0x4#64 → (∀ o, o < Config.ncells → (fbByte o s.fb).toNat ≤ 15) →
      ∃ m : Memory,
        commandMove w s =
          .next (respond .none 0#16 { s with rgb := m, status := { s.status with rgbValid := true } }) ∧
        (∀ (o : Nat) (i : Fin 16), o < Config.ncells → (fbByte o s.fb).toNat = i.val →
          memRead .rgb (3 * o) m = some (Config.palette[i]).r ∧
          memRead .rgb (3 * o + 1) m = some (Config.palette[i]).g ∧
          memRead .rgb (3 * o + 2) m = some (Config.palette[i]).b))

/-- R112: READ_RGB as its pseudocode has it, on every word with OP = 0x5, `v` being the byte RGB holds at the offset; and in
every state the invariant holds of, RGB holds a byte at every offset once a CONVERT has completed. -/
def Obligations.ReadRgbWordFollowsItsRule : Prop :=
  (∀ (w : CmdWord) (s : State) (v : Byte), w.extractLsb' 0 4 = 5#4 →
    (s.status.rgbValid = true → (w.extractLsb' 4 18).toNat < Config.nrgb →
      memRead .rgb (w.extractLsb' 4 18).toNat s.rgb = some v) →
    commandMove w s =
      if s.status.halted = true then .next (respond .halted 0#16 s)
      else if w &&& 0xFFFFFFFFFFC0000F#64 ≠ 0x5#64 then .next (raiseFault .illegalCommand s)
      else if Config.nrgb ≤ (w.extractLsb' 4 18).toNat then .next (raiseFault .rgbRange s)
      else if s.status.rgbValid = false then .next (raiseFault .rgbInvalid s)
      else .next (respond .none (v.setWidth 16) s)) ∧
  (∀ (s : State) (off : Nat), s.Inv → s.status.rgbValid = true → off < Config.nrgb →
    ∃ v, memRead .rgb off s.rgb = some v)

/-- R130: READ_STATUS completes on exactly the word 0x6, halted or not, and changes nothing but the response; response bit 8
is HALTED, bit 9 RGB_VALID, bits 15:12 FIRST_CAUSE, all others 0. Another word with OP = 0x6 is illegal. -/
def Obligations.ReadStatusWordFollowsItsRule : Prop :=
  ∀ (w : CmdWord) (s : State), w.extractLsb' 0 4 = 6#4 →
    commandMove w s =
      if w = 0x6#64 then
        .next
          { s with
            responses :=
              BitVec.ofNat 32 (256 * (s.status.halted.toNat + 2 * s.status.rgbValid.toNat +
                16 * (causeCode s.status.firstCause).toNat)) :: s.responses }
      else if s.status.halted = true then .next (respond .halted 0#16 s)
      else .next (raiseFault .illegalCommand s)

/-- R145: the cause `c` a command word reports is the first that applies in the rule's order; HALTED changes nothing but the
response, and every other cause raises its fault (R143). -/
def Obligations.ReportedCauseFollowsCheckOrder : Prop :=
  ∀ (w : CmdWord) (s t : State) (c : Cause), commandMove w s = .next t →
    c = (if w = 0x6#64 then .none
       else if s.status.halted = true then .halted
       else match decodeWord w with
         | .error _ => .illegalCommand
         | .ok (.plot x y c) =>
             if Config.width ≤ x then .cvX else if Config.height ≤ y then .cvY else if 15 < c then .cvColor else .none
         | .ok (.readPixel x y) => if Config.width ≤ x then .cvX else if Config.height ≤ y then .cvY else .none
         | .ok (.drawLine x0 y0 x1 y1 c) =>
             if Config.width ≤ x0 then .cvX else if Config.height ≤ y0 then .cvY
             else if Config.width ≤ x1 then .cvX else if Config.height ≤ y1 then .cvY
             else if 15 < c then .cvColor else .none
         | .ok .convert => if ∀ o, o < Config.ncells → (fbByte o s.fb).toNat ≤ 15 then .none else .cvIndex
         | .ok (.readRgb off) =>
             if Config.nrgb ≤ off then .rgbRange else if s.status.rgbValid = false then .rgbInvalid else .none
         | .ok .readStatus => .none) →
    (∃ d : BitVec 16, t.responses = respWord c d :: s.responses) ∧
    (c = .halted → t = respond .halted 0#16 s) ∧
    (c ≠ .none → c ≠ .halted → t = raiseFault c s)

/-! ## Where each command completes, with its frame -/

/-- R80: PLOT on legal operands, not halted: its cell takes the colour, every other byte of FB, all of RGB, STATUS, the
channel and the uploads stay, and the response is 0. -/
def Obligations.PlotCompletes : Prop :=
  ∀ (x y c : Nat) (s : State), s.status.halted = false → x < Config.width → y < Config.height → c ≤ 15 →
    ∃ t, exec (.plot x y c) s = .next t ∧ fbRead x y t = BitVec.ofNat 8 c ∧
      (∀ a, a ≠ fbOff x y → memRead .fb a t.fb = memRead .fb a s.fb) ∧
      t.rgb = s.rgb ∧ t.status = s.status ∧ t.inputs = s.inputs ∧ t.uploads = s.uploads ∧
      t.responses = 0#32 :: s.responses

/-- R81: READ_PIXEL on legal operands, not halted: the response carries the cell in bits 23:8, nothing else changes. -/
def Obligations.ReadPixelCompletes : Prop :=
  ∀ (x y : Nat) (s : State), s.status.halted = false → x < Config.width → y < Config.height →
    exec (.readPixel x y) s =
      .next { s with responses := BitVec.ofNat 32 (256 * (fbByte (y * Config.width + x) s.fb).toNat) :: s.responses }

/-- R97: DRAW_LINE on legal operands, not halted: the state after it is the state before it with the cells of the closed
form's set (R95) set to the colour; every other byte of FB, all of RGB, STATUS, the channel and the uploads stay. -/
def Obligations.DrawLineCompletes : Prop :=
  ∀ (x0 y0 x1 y1 c : Nat) (s : State), s.status.halted = false →
    x0 < Config.width → y0 < Config.height → x1 < Config.width → y1 < Config.height → c ≤ 15 →
    ∃ t, exec (.drawLine x0 y0 x1 y1 c) s = .next t ∧
      (∀ k, k ≤ majorLength x0 y0 x1 y1 → ∃ x y : Nat, x < Config.width ∧ y < Config.height ∧
        closedPixel x0 y0 x1 y1 k = ((x : Int), (y : Int)) ∧ fbRead x y t = BitVec.ofNat 8 c) ∧
      (∀ a, (∀ k, k ≤ majorLength x0 y0 x1 y1 → ∀ x y : Nat,
          closedPixel x0 y0 x1 y1 k = ((x : Int), (y : Int)) → a ≠ fbOff x y) →
        memRead .fb a t.fb = memRead .fb a s.fb) ∧
      t.rgb = s.rgb ∧ t.status = s.status ∧ t.inputs = s.inputs ∧ t.uploads = s.uploads ∧
      t.responses = 0#32 :: s.responses

/-- R113: CONVERT on an FB of palette indices, not halted: `RGB[3*(y*320 + x) + j] = pal(FB[x, y])[j]` for every pixel,
RGB_VALID is 1, and FB, the other STATUS fields, the channel and the uploads stay. -/
def Obligations.ConvertCompletes : Prop :=
  ∀ s : State, s.status.halted = false → (∀ o, o < Config.ncells → (fbByte o s.fb).toNat ≤ 15) →
    ∃ t, exec .convert s = .next t ∧
      (∀ x y j : Nat, x < Config.width → y < Config.height → j < 3 →
        memRead .rgb (3 * (y * 320 + x) + j) t.rgb =
          some (tripleByte (pal (BitVec.ofNat 4 (fbRead x y s).toNat)) j)) ∧
      (∀ i, Config.nrgb ≤ i → memRead .rgb i t.rgb = none) ∧
      t.fb = s.fb ∧ t.status = { s.status with rgbValid := true } ∧ t.inputs = s.inputs ∧ t.uploads = s.uploads ∧
      t.responses = 0#32 :: s.responses

/-- R112: READ_RGB of an in-range offset after a CONVERT, not halted: the response carries the byte in bits 23:8, nothing
else changes. -/
def Obligations.ReadRgbCompletes : Prop :=
  ∀ (off : Nat) (s : State), s.Inv → s.status.halted = false → s.status.rgbValid = true → off < Config.nrgb →
    ∃ v : Byte, memRead .rgb off s.rgb = some v ∧
      exec (.readRgb off) s = .next { s with responses := BitVec.ofNat 32 (256 * v.toNat) :: s.responses }

/-- R130: READ_STATUS in every state: the response carries the STATUS word in bits 23:8, nothing else changes. -/
def Obligations.ReadStatusCompletes : Prop :=
  ∀ s : State, exec .readStatus s =
    .next { s with responses := BitVec.ofNat 32 (256 * (statusWord s.status).toNat) :: s.responses }

/-! ## The step and the host's moves -/

/-- The model's own choice (log entry 1, DESIGN CHOICE) of how a step meets the host: it takes the move at the head of
`State.inputs`, runs the command a word decodes to (R69) or answers the illegal word (R70), or does another move of the host,
in the state with that move taken off. -/
def Obligations.StepRunsTheDecodedCommand : Prop :=
  ∀ (s : State) (rest : List HostInput),
    (∀ (w : CmdWord) (i : Instr), s.inputs = .command w :: rest → decodeWord w = .ok i →
      step s = exec i { s with inputs := rest }) ∧
    (∀ (w : CmdWord) (e : DecodeError), s.inputs = .command w :: rest → decodeWord w = .error e →
      step s = execIllegal { s with inputs := rest }) ∧
    (∀ h : HostInput, s.inputs = h :: rest → step s = hostMove h { s with inputs := rest })

/-- R68: every command word returns one response word, its bits 31:24 and 7:4 zero and its cause at most 8; DATA is the value
read for the three reads when they complete and 0 in every other case. -/
def Obligations.EveryWordReturnsOneResponse : Prop :=
  (∀ (w : CmdWord) (s : State), s.Inv → ∃ t, commandMove w s = .next t) ∧
  (∀ (w : CmdWord) (s t : State), commandMove w s = .next t →
    ∃ r : RespWord, t.responses = r :: s.responses ∧
      r.extractLsb' 24 8 = 0#8 ∧ r.extractLsb' 4 4 = 0#4 ∧ (r.extractLsb' 0 4).toNat ≤ 8 ∧
      (r.extractLsb' 0 4 ≠ 0#4 → r.extractLsb' 8 16 = 0#16) ∧
      (∀ i, decodeWord w = .ok i → r.extractLsb' 0 4 = 0#4 →
        match i with
        | .readPixel x y => r.extractLsb' 8 16 = (fbRead x y s).setWidth 16
        | .readRgb off => ∃ v, rgbRead off s = some v ∧ r.extractLsb' 8 16 = v.setWidth 16
        | .readStatus => r.extractLsb' 8 16 = statusWord s.status
        | _ => r.extractLsb' 8 16 = 0#16) ∧
      (∀ e, decodeWord w = .error e → r.extractLsb' 0 4 ≠ 0#4))

/-- R170: the reset state, and a reset from any state: every cell of FB 0, no byte of RGB with a value, STATUS 0. -/
def Obligations.ResetReachesTheResetState : Prop :=
  (∀ t : State, (t = State.reset ∨ ∃ s : State, hostMove .reset s = .next t) →
    (∀ a, memRead .fb a t.fb = some 0#8) ∧ (∀ a, memRead .rgb a t.rgb = none) ∧
    t.status.halted = false ∧ t.status.rgbValid = false ∧ causeCode t.status.firstCause = 0#4 ∧
    statusWord t.status = 0#16) ∧
  (∀ s : State, ∃ t, hostMove .reset s = .next t)

/-- R157: an upload after a CONVERT, halted or not, reads every one of RGB's 192000 bytes as it stands, which is the byte
READ_RGB returns where it is served, and changes nothing of the block. -/
def Obligations.UploadTakesAllOfRgb : Prop :=
  ∀ s : State, s.Inv → s.status.rgbValid = true →
    ∃ (t : State) (u : Memory), hostMove .upload s = .next t ∧ t.uploads = u :: s.uploads ∧ sameBlock s t ∧
      t.inputs = s.inputs ∧ t.responses = s.responses ∧
      ∀ off, off < Config.nrgb → ∃ v, memRead .rgb off u = some v ∧ memRead .rgb off s.rgb = some v ∧
        (s.status.halted = false → exec (.readRgb off) s = .next (respond .none (v.setWidth 16) s))

/-- The model's own choice (log entry 5) where R157 and R159 give an upload no move: before the first CONVERT since reset an
upload stops the machine under its own name. -/
def Obligations.UploadBeforeConvertStops : Prop :=
  ∀ s : State, s.status.rgbValid = false → hostMove .upload s = .fault .uploadWithoutValue

/-- R56, R176: a CONVERT followed by an upload shows exactly the conversion of FB as the draws before the CONVERT left it. -/
def Obligations.UploadAfterConvertShowsTheFrame : Prop :=
  ∀ (s : State) (rest : List HostInput), s.Inv → s.status.halted = false →
    s.inputs = .command 0x0000000000000004#64 :: .upload :: rest →
    ∃ (t u : State) (m : Memory), step s = .next t ∧ step t = .next u ∧ u.uploads = m :: s.uploads ∧ u.fb = s.fb ∧
      u.inputs = rest ∧
      ∀ x y j : Nat, x < Config.width → y < Config.height → j < 3 →
        memRead .rgb (3 * (y * 320 + x) + j) m =
          some (tripleByte (pal (BitVec.ofNat 4 (fbRead x y s).toNat)) j)

/-- R156: a resize changes no state and returns no response. -/
def Obligations.ResizeChangesNothing : Prop :=
  ∀ (s : State) (width height : Nat), hostMove (.resize width height) s = .next s

/-- R155: a present tick on an active surface makes the host issue CONVERT and then upload; on an inactive surface it issues
nothing. Neither changes the block (the queue is the model's, log entry 7). -/
def Obligations.PresentTickIssuesConvertThenUpload : Prop :=
  ∀ (s : State) (rest : List HostInput),
    (s.inputs = .presentTick true :: rest →
      step s = .next { s with inputs := .command 0x0000000000000004#64 :: .upload :: rest }) ∧
    (s.inputs = .presentTick false :: rest → step s = .next { s with inputs := rest })

/-- R171, R154: while the host sends nothing, nothing changes (log entry 4). -/
def Obligations.IdleStepChangesNothing : Prop :=
  ∀ s : State, s.inputs = [] → step s = .next s

/-- R16: from every state the invariant holds of, while the host keeps its duty, the step answers a next state. -/
def Obligations.StepNeverStopsUnderDuty : Prop :=
  ∀ s : State, s.Inv → hostDuty s → ∃ t, step s = .next t

/-! ## Faults -/

/-- R143: a word that halts a running block changes HALTED and FIRST_CAUSE and nothing else of the block, and its response is
`(cause, 0)` with the cause FIRST_CAUSE takes, which is 1..7. -/
def Obligations.FaultsArePrecise : Prop :=
  ∀ (w : CmdWord) (s t : State), s.status.halted = false → commandMove w s = .next t → t.status.halted = true →
    t.fb = s.fb ∧ t.rgb = s.rgb ∧ t.status.rgbValid = s.status.rgbValid ∧ t.inputs = s.inputs ∧ t.uploads = s.uploads ∧
    1 ≤ (causeCode t.status.firstCause).toNat ∧ (causeCode t.status.firstCause).toNat ≤ 7 ∧
    t.responses = (causeCode t.status.firstCause).setWidth 32 :: s.responses

/-- R144: while halted, every word but READ_STATUS answers `(8, 0)` and changes no state; READ_STATUS completes; the upload
still reads RGB. -/
def Obligations.HaltedAnswersEveryWord : Prop :=
  (∀ s : State, s.status.halted = true → s.status.rgbValid = true →
    hostMove .upload s = .next { s with uploads := s.rgb :: s.uploads }) ∧
  ∀ (w : CmdWord) (s : State), s.status.halted = true →
    (w ≠ 0x0000000000000006#64 → commandMove w s = .next { s with responses := 8#32 :: s.responses }) ∧
    (w = 0x0000000000000006#64 → ∃ r : RespWord, r.extractLsb' 0 4 = 0#4 ∧ r.extractLsb' 8 16 = statusWord s.status ∧
      commandMove w s = .next { s with responses := r :: s.responses })

/-- R146: a halted block stays as it is, FIRST_CAUSE too, at every move of the host that is not a reset; a reset clears FB,
invalidates RGB and leaves the halted state; no command clears a field of STATUS. -/
def Obligations.OnlyResetLeavesTheHalt : Prop :=
  (∀ (h : HostInput) (s t : State), s.status.halted = true → hostMove h s = .next t →
    (h ≠ .reset → sameBlock s t) ∧
    (h = .reset → t.status.halted = false ∧ t.status.rgbValid = false ∧ t.status.firstCause = .none ∧
      (∀ a, fbByte a t.fb = 0#8) ∧ (∀ a, memRead .rgb a t.rgb = none))) ∧
  (∀ (w : CmdWord) (s t : State), commandMove w s = .next t →
    (s.status.halted = true → t.status.halted = true ∧ t.status.firstCause = s.status.firstCause) ∧
    (s.status.rgbValid = true → t.status.rgbValid = true))

/-- R111, R21: no command raises CV_INDEX in a state the invariant holds of. -/
def Obligations.CvIndexIsNeverRaised : Prop :=
  ∀ (w : CmdWord) (s t : State), s.Inv → commandMove w s = .next t → t.status.firstCause = .cvIndex →
    s.status.firstCause = .cvIndex

/-! ## Invariants and who changes what -/

/-- R26: the fields of the STATUS register and its hardwired zeros; in every state the invariant holds of, FIRST_CAUSE is 0
exactly when HALTED is 0, and never 8. -/
def Obligations.StatusRegisterHoldsItsFields : Prop :=
  (∀ st : Status,
    (statusWord st).extractLsb' 0 1 = BitVec.ofBool st.halted ∧ (statusWord st).extractLsb' 1 1 = BitVec.ofBool st.rgbValid ∧
    (statusWord st).extractLsb' 2 2 = 0#2 ∧ (statusWord st).extractLsb' 4 4 = causeCode st.firstCause ∧
    (statusWord st).extractLsb' 8 8 = 0#8) ∧
  (∀ s : State, s.Inv →
    ((statusWord s.status).extractLsb' 4 4 = 0#4 ↔ (statusWord s.status).extractLsb' 0 1 = 0#1) ∧
    (statusWord s.status).extractLsb' 4 4 ≠ 8#4)

/-- The invariant (R20, R21, R23, R26) holds after reset. -/
def Obligations.InvHoldsAtReset : Prop := State.reset.Inv

/-- Every step keeps the invariant: FB canonical with cells 0..15, RGB canonical and full exactly when valid, FIRST_CAUSE 0
exactly when HALTED is 0 and never 8, every recorded upload full. -/
def Obligations.StepKeepsInv : Prop :=
  ∀ s t : State, s.Inv → step s = .next t → t.Inv

/-- R22: FB changes only at a reset, a PLOT or a DRAW_LINE; and only READ_PIXEL and CONVERT read it: what another word does
to the rest of the state does not depend on FB. -/
def Obligations.FbIsReachedOnlyAsRuled : Prop :=
  (∀ (h : HostInput) (s t : State), hostMove h s = .next t → t.fb ≠ s.fb →
    h = .reset ∨
    ∃ w, h = .command w ∧
      ((∃ x y c, decodeWord w = .ok (.plot x y c)) ∨ (∃ x0 y0 x1 y1 c, decodeWord w = .ok (.drawLine x0 y0 x1 y1 c)))) ∧
  (∀ (w : CmdWord) (s t : State) (m : Memory), (∀ x y, decodeWord w ≠ .ok (.readPixel x y)) →
    decodeWord w ≠ .ok .convert → commandMove w s = .next t →
    ∃ u, commandMove w { s with fb := m } = .next u ∧ u.rgb = t.rgb ∧ u.status = t.status ∧
      u.responses = t.responses ∧ u.inputs = t.inputs ∧ u.uploads = t.uploads)

/-- R23, R24: RGB changes only at a reset or a CONVERT; and only READ_RGB and the upload read it: what another word does to
the rest of the state does not depend on RGB. -/
def Obligations.RgbIsReachedOnlyAsRuled : Prop :=
  (∀ (h : HostInput) (s t : State), hostMove h s = .next t → t.rgb ≠ s.rgb →
    h = .reset ∨ ∃ w, h = .command w ∧ decodeWord w = .ok .convert) ∧
  (∀ (w : CmdWord) (s t : State) (m : Memory), (∀ off, decodeWord w ≠ .ok (.readRgb off)) →
    commandMove w s = .next t →
    ∃ u, commandMove w { s with rgb := m } = .next u ∧ u.fb = t.fb ∧ u.status = t.status ∧
      u.responses = t.responses ∧ u.inputs = t.inputs ∧ u.uploads = t.uploads)

/-- R32: STATUS changes only at a reset, at a fault (HALTED and FIRST_CAUSE), or at a CONVERT (RGB_VALID). -/
def Obligations.StatusChangesOnlyAsRuled : Prop :=
  ∀ (h : HostInput) (s t : State), hostMove h s = .next t → t.status ≠ s.status →
    h = .reset ∨
    ∃ w, h = .command w ∧ s.status.halted = false ∧
      ((∃ c, c ≠ .none ∧ c ≠ .halted ∧ t.status = { s.status with halted := true, firstCause := c }) ∨
       (decodeWord w = .ok .convert ∧ t.status = { s.status with rgbValid := true }))

/-- R48: a PLOT, a DRAW_LINE or a CONVERT issued twice leaves the block as issued once; a READ_PIXEL, READ_RGB or READ_STATUS
that completes leaves the block unchanged and gives the same response again. -/
def Obligations.WritesAreIdempotentAndReadsPure : Prop :=
  (∀ (i : Instr) (s t : State), s.Inv →
    ((∃ x y c, i = .plot x y c) ∨ (∃ x0 y0 x1 y1 c, i = .drawLine x0 y0 x1 y1 c) ∨ i = .convert) →
    exec i s = .next t → ∃ u, exec i t = .next u ∧ sameBlock t u) ∧
  (∀ (i : Instr) (s t : State) (r : RespWord),
    ((∃ x y, i = .readPixel x y) ∨ (∃ off, i = .readRgb off) ∨ i = .readStatus) →
    exec i s = .next t → t.responses = r :: s.responses → r.extractLsb' 0 4 = 0#4 →
    sameBlock s t ∧ ∃ u, exec i t = .next u ∧ sameBlock s u ∧ u.responses = r :: t.responses)

/-- R175: a READ_PIXEL directly after a PLOT sees the written value, and one directly after a DRAW_LINE sees it in a cell of
the line; a READ_RGB directly after a CONVERT sees the converted byte. -/
def Obligations.ReadsSeeTheLastWrite : Prop :=
  (∀ (x y c : Nat) (s t : State), exec (.plot x y c) s = .next t → t.status.halted = false →
    ∃ u, exec (.readPixel x y) t = .next u ∧ u.responses = BitVec.ofNat 32 (256 * c) :: t.responses) ∧
  (∀ (x0 y0 x1 y1 c x y : Nat) (s t : State), exec (.drawLine x0 y0 x1 y1 c) s = .next t → t.status.halted = false →
    ((x : Int), (y : Int)) ∈ linePixels x0 y0 x1 y1 →
    ∃ u, exec (.readPixel x y) t = .next u ∧ u.responses = BitVec.ofNat 32 (256 * c) :: t.responses) ∧
  (∀ (x y j : Nat) (s t : State), exec .convert s = .next t → t.status.halted = false →
    x < Config.width → y < Config.height → j < 3 →
    ∃ u, exec (.readRgb (rgbOff x y + j)) t = .next u ∧
      u.responses =
        BitVec.ofNat 32 (256 * (tripleByte (pal (BitVec.ofNat 4 (fbRead x y s).toNat)) j).toNat) :: t.responses)

/-! ## The rasterizer (R82, R91 to R102) -/

/-- R82: PLOT and a zero-length DRAW_LINE do the same in every state, for every operand, legal or not. -/
def Obligations.PlotIsAZeroLengthLine : Prop :=
  ∀ (x y c : Nat) (s : State), exec (.plot x y c) s = exec (.drawLine x y x y c) s

/-- R91, R92: a line has exactly `M + 1` pixels, and they are distinct. -/
def Obligations.LinePixelsAreCountedAndDistinct : Prop :=
  ∀ x0 y0 x1 y1 : Nat,
    (linePixels x0 y0 x1 y1).length = max ((x1 : Int) - x0).natAbs ((y1 : Int) - y0).natAbs + 1 ∧
    (linePixels x0 y0 x1 y1).Nodup

/-- R93: the first pixel written is `(x0, y0)` and the last is `(x1, y1)`. -/
def Obligations.LineJoinsItsEndpoints : Prop :=
  ∀ x0 y0 x1 y1 : Nat,
    (linePixels x0 y0 x1 y1).head? = some ((x0 : Int), (y0 : Int)) ∧
    (linePixels x0 y0 x1 y1).getLast? = some ((x1 : Int), (y1 : Int))

/-- R94: every pixel lies in the endpoints' box, so between legal endpoints every pixel is a cell of FB. -/
def Obligations.LineStaysInItsBox : Prop :=
  ∀ x0 y0 x1 y1 : Nat, ∀ p ∈ linePixels x0 y0 x1 y1,
    (min (x0 : Int) x1 ≤ p.1 ∧ p.1 ≤ max (x0 : Int) x1 ∧ min (y0 : Int) y1 ≤ p.2 ∧ p.2 ≤ max (y0 : Int) y1) ∧
    (x0 < Config.width → x1 < Config.width → y0 < Config.height → y1 < Config.height →
      ∃ x y : Nat, x < Config.width ∧ y < Config.height ∧ p = ((x : Int), (y : Int)))

/-- R95: R90's loop gives the closed form, pixel by pixel, for every pair of endpoints. -/
def Obligations.LineHasTheClosedForm : Prop :=
  ∀ x0 y0 x1 y1 dxabs dyabs : Nat, ∀ dx dy : Int,
    dx = (x1 : Int) - x0 → dy = (y1 : Int) - y0 → dxabs = dx.natAbs → dyabs = dy.natAbs →
    linePixels x0 y0 x1 y1 =
      (List.range (max dxabs dyabs + 1)).map (fun (k : Nat) =>
        if dyabs ≤ dxabs then
          ((x0 : Int) + dx.sign * k, (y0 : Int) + dy.sign * (((dxabs / 2 + k * dyabs) / dxabs : Nat) : Int))
        else
          ((x0 : Int) + dx.sign * (((dyabs / 2 + k * dxabs) / dyabs : Nat) : Int), (y0 : Int) + dy.sign * k))

/-- R96: a horizontal line is exactly its row between the ends, a vertical line exactly its column, a zero-length line
exactly its one cell. -/
def Obligations.StraightLinesAreExact : Prop :=
  (∀ x0 x1 y0 : Nat, ∀ p : Int × Int, p ∈ linePixels x0 y0 x1 y0 ↔
    min (x0 : Int) x1 ≤ p.1 ∧ p.1 ≤ max (x0 : Int) x1 ∧ p.2 = y0) ∧
  (∀ x0 y0 y1 : Nat, y0 ≠ y1 → ∀ p : Int × Int, p ∈ linePixels x0 y0 x0 y1 ↔
    p.1 = x0 ∧ min (y0 : Int) y1 ≤ p.2 ∧ p.2 ≤ max (y0 : Int) y1) ∧
  (∀ x0 y0 : Nat, linePixels x0 y0 x0 y0 = [((x0 : Int), (y0 : Int))])

/-- R98: drawing the same line again leaves the same state, and where two lines share a cell it holds the later colour. -/
def Obligations.LaterLineWins : Prop :=
  (∀ (x0 y0 x1 y1 c : Nat) (s t u : State), s.Inv → exec (.drawLine x0 y0 x1 y1 c) s = .next t →
    exec (.drawLine x0 y0 x1 y1 c) t = .next u → sameBlock t u) ∧
  (∀ (a0 b0 a1 b1 d x0 y0 x1 y1 c : Nat) (s t u : State), exec (.drawLine a0 b0 a1 b1 d) s = .next t →
    exec (.drawLine x0 y0 x1 y1 c) t = .next u → u.status.halted = false →
    ∀ x y : Nat, ((x : Int), (y : Int)) ∈ linePixels a0 b0 a1 b1 → ((x : Int), (y : Int)) ∈ linePixels x0 y0 x1 y1 →
      fbRead x y u = BitVec.ofNat 8 c)

/-- R99: swapping the endpoints gives the same set of pixels exactly when `m = 0` or `v2(m) >= v2(M)`. -/
def Obligations.SwapSymmetryCriterion : Prop :=
  ∀ x0 y0 x1 y1 : Nat,
    (∀ p : Int × Int, p ∈ linePixels x0 y0 x1 y1 ↔ p ∈ linePixels x1 y1 x0 y0) ↔
      (minorLength x0 y0 x1 y1 = 0 ∨
        padicValNat 2 (majorLength x0 y0 x1 y1) ≤ padicValNat 2 (minorLength x0 y0 x1 y1))

/-- R100: a line with equal deltas is the exact diagonal. -/
def Obligations.DiagonalLinesAreExact : Prop :=
  ∀ x0 y0 x1 y1 m : Nat, m = ((x1 : Int) - x0).natAbs → m = ((y1 : Int) - y0).natAbs → 0 < m →
    linePixels x0 y0 x1 y1 =
      (List.range (m + 1)).map (fun (k : Nat) =>
        ((x0 : Int) + ((x1 : Int) - x0).sign * k, (y0 : Int) + ((y1 : Int) - y0).sign * k))

/-- R101: the minor-axis offset at major step `k` is `k*m/M` rounded to the nearest integer, an exact half rounded up; and an
exact half occurs only when `M` is even. -/
def Obligations.LineRoundsToNearest : Prop :=
  ∀ x0 y0 x1 y1 k M m : Nat, M = majorLength x0 y0 x1 y1 → m = minorLength x0 y0 x1 y1 → 0 < M → k ≤ M →
    ∃ q : Nat,
      (linePixels x0 y0 x1 y1)[k]? = some
        (if ((y1 : Int) - y0).natAbs ≤ ((x1 : Int) - x0).natAbs then
          ((x0 : Int) + ((x1 : Int) - x0).sign * k, (y0 : Int) + ((y1 : Int) - y0).sign * q)
        else ((x0 : Int) + ((x1 : Int) - x0).sign * q, (y0 : Int) + ((y1 : Int) - y0).sign * k)) ∧
      2 * M * q ≤ 2 * (k * m) + M ∧ 2 * (k * m) < 2 * M * q + M ∧
      (∀ n : Nat, 2 * (k * m) = 2 * M * n + M → 2 ∣ M ∧ q = n + 1)

/-- R102: the accumulator of the branch taken stays from 0 to below the major delta at every write, and inside an iteration
it never exceeds `2*M - 1`, which is at most 637 between legal endpoints. -/
def Obligations.AccumulatorStaysBelowMajor : Prop :=
  ∀ x0 y0 x1 y1 dxabs dyabs : Nat, dxabs = ((x1 : Int) - x0).natAbs → dyabs = ((y1 : Int) - y0).natAbs →
    (∀ r ∈ lineRasters x0 y0 x1 y1,
      (dyabs ≤ dxabs → 1 ≤ dxabs → 0 ≤ r.ey ∧ r.ey < dxabs ∧ r.ey + dyabs ≤ 2 * (dxabs : Int) - 1) ∧
      (dxabs < dyabs → 0 ≤ r.ex ∧ r.ex < dyabs ∧ r.ex + dxabs ≤ 2 * (dyabs : Int) - 1)) ∧
    (x0 < Config.width → x1 < Config.width → y0 < Config.height → y1 < Config.height →
      2 * (dxabs : Int) - 1 ≤ 637 ∧ 2 * (dyabs : Int) - 1 ≤ 637)

/-! ## The converter (R25, R110 to R116) -/

/-- R25: the sixteen triples of PALETTE. -/
def Obligations.PaletteIsTheTable : Prop :=
  (List.range 16).map (fun i => ((pal (BitVec.ofNat 4 i)).r.toNat, (pal (BitVec.ofNat 4 i)).g.toNat,
      (pal (BitVec.ofNat 4 i)).b.toNat)) =
    [(0, 0, 0), (0, 0, 128), (0, 128, 0), (0, 128, 128), (128, 0, 0), (128, 0, 128), (128, 128, 0), (192, 192, 192),
     (128, 128, 128), (0, 0, 255), (0, 255, 0), (0, 255, 255), (255, 0, 0), (255, 0, 255), (255, 255, 0), (255, 255, 255)]

/-- R111: RGB after a CONVERT is what the pseudocode's 192000 writes, in its order, make of RGB before it. This discharges
log entry 15, by which the model builds the list directly. -/
def Obligations.ConvertEqualsItsWrites : Prop :=
  ∀ s t : State, s.Inv → exec .convert s = .next t → t.status.halted = false →
    t.rgb = (List.range Config.ncells).foldl
      (fun m o =>
        memWrite .rgb (3 * o + 2) (pal (BitVec.ofNat 4 (fbByte o s.fb).toNat)).b
          (memWrite .rgb (3 * o + 1) (pal (BitVec.ofNat 4 (fbByte o s.fb).toNat)).g
            (memWrite .rgb (3 * o) (pal (BitVec.ofNat 4 (fbByte o s.fb).toNat)).r m))) s.rgb

/-- R114: two CONVERTs with no PLOT, DRAW_LINE or reset between them leave the same RGB, whatever other moves of the host,
and however many steps, stand between them. -/
def Obligations.ConvertIsPure : Prop :=
  ∀ (s t u v : State) (hs : List HostInput) (n : Nat), exec .convert s = .next t → (∀ h ∈ hs, leavesFb h) →
    runSteps n { t with inputs := hs } = .next u → exec .convert u = .next v → v.status.halted = false → v.rgb = t.rgb

/-- R115: an FB filled with one index converts to an RGB whose every triple is that index's palette entry. -/
def Obligations.UniformFillConverts : Prop :=
  ∀ (s : State) (i : Nat), s.status.halted = false → i ≤ 15 →
    (∀ x y, x < Config.width → y < Config.height → fbRead x y s = BitVec.ofNat 8 i) →
    ∃ t, exec .convert s = .next t ∧
      ∀ x y, x < Config.width → y < Config.height →
        rgbRead (rgbOff x y) t = some (pal (BitVec.ofNat 4 i)).r ∧
        rgbRead (rgbOff x y + 1) t = some (pal (BitVec.ofNat 4 i)).g ∧
        rgbRead (rgbOff x y + 2) t = some (pal (BitVec.ofNat 4 i)).b

/-- R116: the sixteen triples are pairwise different, and the three bytes of a pixel after a CONVERT determine the index its
cell held at that CONVERT. -/
def Obligations.IndicesAreRecoverable : Prop :=
  (∀ i j : BitVec 4, pal i = pal j → i = j) ∧
  (∀ (s t s' t' : State) (x y : Nat), exec .convert s = .next t → t.status.halted = false →
    exec .convert s' = .next t' → t'.status.halted = false → x < Config.width → y < Config.height →
    (∀ j, j < 3 → rgbRead (rgbOff x y + j) t = rgbRead (rgbOff x y + j) t') → fbRead x y s = fbRead x y s')
end

