-- ==== Sys2Proof/Laws/Word.lean ====
section
/-! SUPPORT. Concatenations of bit vectors as numbers (00_scope.md R8). -/

namespace Sys2Proof

/-- A concatenation as a number: its high part counts `2 ^ n` (R8). -/
theorem append_toNat {m n : Nat} (x : BitVec m) (y : BitVec n) : (x ++ y).toNat = x.toNat * 2 ^ n + y.toNat := by
  rw [BitVec.toNat_append, ← Nat.shiftLeft_add_eq_or_of_lt y.isLt, Nat.shiftLeft_eq]

end Sys2Proof
end

