-- ==== Sys2Proof/Laws/Decode.lean ====
section
/-! SUPPORT. The decoder and the encoder: a matching row has the word's opcode, so the row of a word is found by its opcode;
masks and concatenations; words as bytes (30_encoding.md R61 to R70, 20_memory.md R45). -/

namespace Sys2Proof

/-- The opcode of a row (R67). -/
def opcodeOf : Op → BitVec 4
  | .plot => 1#4
  | .readPixel => 2#4
  | .drawLine => 3#4
  | .convert => 4#4
  | .readRgb => 5#4
  | .readStatus => 6#4

/-- The row of the opcode map an instruction stands in. -/
def rowOf : Instr → Op
  | .plot _ _ _ => .plot
  | .readPixel _ _ => .readPixel
  | .drawLine _ _ _ _ _ => .drawLine
  | .convert => .convert
  | .readRgb _ => .readRgb
  | .readStatus => .readStatus

theorem opcodeOf_inj {a b : Op} (h : opcodeOf a = opcodeOf b) : a = b := by
  cases a <;> cases b <;> first | rfl | exact absurd h (by decide)

/-- The row of R67 for each operation. -/
def rowFor : Op → OpRow
  | .plot => ⟨.plot, 0x0000000000000001#64, 0xFFFFC03FFFE0000F#64⟩
  | .readPixel => ⟨.readPixel, 0x0000000000000002#64, 0xFFFFFFFFFFE0000F#64⟩
  | .drawLine => ⟨.drawLine, 0x0000000000000003#64, 0xFFFFC0000000000F#64⟩
  | .convert => ⟨.convert, 0x0000000000000004#64, 0xFFFFFFFFFFFFFFFF#64⟩
  | .readRgb => ⟨.readRgb, 0x0000000000000005#64, 0xFFFFFFFFFFC0000F#64⟩
  | .readStatus => ⟨.readStatus, 0x0000000000000006#64, 0xFFFFFFFFFFFFFFFF#64⟩

theorem mem_opcodeRows {r : OpRow} : r ∈ opcodeRows ↔ r = rowFor r.op := by
  constructor
  · intro h
    simp only [opcodeRows, List.mem_cons, List.not_mem_nil, or_false] at h
    rcases h with rfl | rfl | rfl | rfl | rfl | rfl <;> rfl
  · intro h
    rw [h]
    cases r.op <;> decide

/-- Every mask covers OP, so a matching row has the word's opcode (R69). -/
theorem fieldOp_of_matches {r : OpRow} (hr : r ∈ opcodeRows) {w : CmdWord} (h : r.matchesWord w = true) :
    fieldOp w = opcodeOf r.op := by
  have h : w &&& r.mask = r.pattern := of_decide_eq_true h
  have h1 : fieldOp (w &&& r.mask) = fieldOp w &&& fieldOp r.mask := BitVec.extractLsb'_and
  have h2 : fieldOp r.mask = 0xF#4 ∧ fieldOp r.pattern = opcodeOf r.op := by
    rw [mem_opcodeRows.1 hr]
    cases r.op <;> decide
  rw [h, h2.1, h2.2] at h1
  rw [h1]
  exact (BitVec.and_allOnes (x := fieldOp w)).symm

/-- The decoder finds the row that matches (R69). -/
theorem decodeWord_of_matches {r : OpRow} (hr : r ∈ opcodeRows) {w : CmdWord} (h : r.matchesWord w = true) :
    decodeWord w = .ok (operandsOf w r.op) := by
  unfold decodeWord
  cases hf : opcodeRows.find? (fun r => r.matchesWord w) with
  | none => exact absurd h (List.find?_eq_none.1 hf r hr)
  | some q =>
    have hq := List.find?_some hf
    have hm := List.mem_of_find?_eq_some hf
    have e : opcodeOf q.op = opcodeOf r.op := (fieldOp_of_matches hm hq).symm.trans (fieldOp_of_matches hr h)
    have e := opcodeOf_inj e
    simp only [e]

/-- A word that decodes has a matching row. -/
theorem matches_of_decodeWord {w : CmdWord} {i : Instr} (h : decodeWord w = .ok i) :
    ∃ r ∈ opcodeRows, r.matchesWord w = true ∧ i = operandsOf w r.op := by
  unfold decodeWord at h
  cases hf : opcodeRows.find? (fun r => r.matchesWord w) with
  | none => rw [hf] at h; cases h
  | some q =>
    rw [hf] at h
    cases h
    exact ⟨q, List.mem_of_find?_eq_some hf, List.find?_some (p := fun r : OpRow => r.matchesWord w) hf, rfl⟩

/-- A word that does not decode matches no row. -/
theorem decodeWord_error_iff {w : CmdWord} :
    (∃ e, decodeWord w = .error e) ↔ ∀ r ∈ opcodeRows, r.matchesWord w = false := by
  constructor
  · rintro ⟨e, he⟩ r hr
    by_contra h
    rw [decodeWord_of_matches hr (by simpa using h)] at he
    cases he
  · intro h
    refine ⟨illegalReason w, ?_⟩
    unfold decodeWord
    rw [List.find?_eq_none.2 (fun r hr => by simp [h r hr])]

/-- A word in the row of plot: OP is its opcode and every must-be-zero bit of its format is 0. -/
theorem matchesWord_plot (w : CmdWord) : (rowFor .plot).matchesWord w = true ↔
    w.extractLsb' 0 4 = 1#4 ∧ w.extractLsb' 21 17 = 0#17 ∧ w.extractLsb' 46 18 = 0#18 := by
  have hw : w = (w.extractLsb' 46 18 ++ w.extractLsb' 38 8 ++ w.extractLsb' 21 17 ++ w.extractLsb' 13 8 ++ w.extractLsb' 4 9 ++ w.extractLsb' 0 4 :
      BitVec (18 + 8 + 17 + 8 + 9 + 4)) := by
    apply BitVec.eq_of_toNat_eq
    have h := w.isLt
    simp only [append_toNat, BitVec.extractLsb'_toNat, Nat.shiftRight_eq_div_pow]
    omega
  have e : w &&& (rowFor .plot).mask = (w.extractLsb' 46 18 ++ 0#8 ++ w.extractLsb' 21 17 ++ 0#8 ++ 0#9 ++ w.extractLsb' 0 4 :
      BitVec (18 + 8 + 17 + 8 + 9 + 4)) := by
    conv_lhs => rw [hw]
    change (_ &&& (BitVec.allOnes 18 ++ 0#8 ++ BitVec.allOnes 17 ++ 0#8 ++ 0#9 ++ BitVec.allOnes 4 :
      BitVec (18 + 8 + 17 + 8 + 9 + 4))) = _
    simp only [BitVec.and_append, BitVec.and_zero, BitVec.and_allOnes]
  rw [OpRow.matchesWord, decide_eq_true_eq, e, ← BitVec.toNat_inj, ← BitVec.toNat_inj, ← BitVec.toNat_inj, ← BitVec.toNat_inj]
  generalize w.extractLsb' 0 4 = a
  generalize w.extractLsb' 21 17 = b
  generalize w.extractLsb' 46 18 = c
  have ha := a.isLt
  have hb := b.isLt
  have hc := c.isLt
  simp only [append_toNat]
  simp [rowFor]
  omega

/-- A word in the row of readPixel: OP is its opcode and every must-be-zero bit of its format is 0. -/
theorem matchesWord_readPixel (w : CmdWord) : (rowFor .readPixel).matchesWord w = true ↔
    w.extractLsb' 0 4 = 2#4 ∧ w.extractLsb' 21 43 = 0#43 := by
  have hw : w = (w.extractLsb' 21 43 ++ w.extractLsb' 13 8 ++ w.extractLsb' 4 9 ++ w.extractLsb' 0 4 :
      BitVec (43 + 8 + 9 + 4)) := by
    apply BitVec.eq_of_toNat_eq
    have h := w.isLt
    simp only [append_toNat, BitVec.extractLsb'_toNat, Nat.shiftRight_eq_div_pow]
    omega
  have e : w &&& (rowFor .readPixel).mask = (w.extractLsb' 21 43 ++ 0#8 ++ 0#9 ++ w.extractLsb' 0 4 :
      BitVec (43 + 8 + 9 + 4)) := by
    conv_lhs => rw [hw]
    change (_ &&& (BitVec.allOnes 43 ++ 0#8 ++ 0#9 ++ BitVec.allOnes 4 :
      BitVec (43 + 8 + 9 + 4))) = _
    simp only [BitVec.and_append, BitVec.and_zero, BitVec.and_allOnes]
  rw [OpRow.matchesWord, decide_eq_true_eq, e, ← BitVec.toNat_inj, ← BitVec.toNat_inj, ← BitVec.toNat_inj]
  generalize w.extractLsb' 0 4 = a
  generalize w.extractLsb' 21 43 = b
  have ha := a.isLt
  have hb := b.isLt
  simp only [append_toNat]
  simp [rowFor]
  omega

/-- A word in the row of drawLine: OP is its opcode and every must-be-zero bit of its format is 0. -/
theorem matchesWord_drawLine (w : CmdWord) : (rowFor .drawLine).matchesWord w = true ↔
    w.extractLsb' 0 4 = 3#4 ∧ w.extractLsb' 46 18 = 0#18 := by
  have hw : w = (w.extractLsb' 46 18 ++ w.extractLsb' 38 8 ++ w.extractLsb' 30 8 ++ w.extractLsb' 21 9 ++ w.extractLsb' 13 8 ++ w.extractLsb' 4 9 ++ w.extractLsb' 0 4 :
      BitVec (18 + 8 + 8 + 9 + 8 + 9 + 4)) := by
    apply BitVec.eq_of_toNat_eq
    have h := w.isLt
    simp only [append_toNat, BitVec.extractLsb'_toNat, Nat.shiftRight_eq_div_pow]
    omega
  have e : w &&& (rowFor .drawLine).mask = (w.extractLsb' 46 18 ++ 0#8 ++ 0#8 ++ 0#9 ++ 0#8 ++ 0#9 ++ w.extractLsb' 0 4 :
      BitVec (18 + 8 + 8 + 9 + 8 + 9 + 4)) := by
    conv_lhs => rw [hw]
    change (_ &&& (BitVec.allOnes 18 ++ 0#8 ++ 0#8 ++ 0#9 ++ 0#8 ++ 0#9 ++ BitVec.allOnes 4 :
      BitVec (18 + 8 + 8 + 9 + 8 + 9 + 4))) = _
    simp only [BitVec.and_append, BitVec.and_zero, BitVec.and_allOnes]
  rw [OpRow.matchesWord, decide_eq_true_eq, e, ← BitVec.toNat_inj, ← BitVec.toNat_inj, ← BitVec.toNat_inj]
  generalize w.extractLsb' 0 4 = a
  generalize w.extractLsb' 46 18 = b
  have ha := a.isLt
  have hb := b.isLt
  simp only [append_toNat]
  simp [rowFor]
  omega

/-- A word in the row of convert: OP is its opcode and every must-be-zero bit of its format is 0. -/
theorem matchesWord_convert (w : CmdWord) : (rowFor .convert).matchesWord w = true ↔
    w.extractLsb' 0 4 = 4#4 ∧ w.extractLsb' 4 60 = 0#60 := by
  have hw : w = (w.extractLsb' 4 60 ++ w.extractLsb' 0 4 :
      BitVec (60 + 4)) := by
    apply BitVec.eq_of_toNat_eq
    have h := w.isLt
    simp only [append_toNat, BitVec.extractLsb'_toNat, Nat.shiftRight_eq_div_pow]
    omega
  have e : w &&& (rowFor .convert).mask = (w.extractLsb' 4 60 ++ w.extractLsb' 0 4 :
      BitVec (60 + 4)) := by
    conv_lhs => rw [hw]
    change (_ &&& (BitVec.allOnes 60 ++ BitVec.allOnes 4 :
      BitVec (60 + 4))) = _
    simp only [BitVec.and_append, BitVec.and_allOnes]
  rw [OpRow.matchesWord, decide_eq_true_eq, e, ← BitVec.toNat_inj, ← BitVec.toNat_inj, ← BitVec.toNat_inj]
  generalize w.extractLsb' 0 4 = a
  generalize w.extractLsb' 4 60 = b
  have ha := a.isLt
  have hb := b.isLt
  simp only [append_toNat]
  simp [rowFor]
  omega

/-- A word in the row of readRgb: OP is its opcode and every must-be-zero bit of its format is 0. -/
theorem matchesWord_readRgb (w : CmdWord) : (rowFor .readRgb).matchesWord w = true ↔
    w.extractLsb' 0 4 = 5#4 ∧ w.extractLsb' 22 42 = 0#42 := by
  have hw : w = (w.extractLsb' 22 42 ++ w.extractLsb' 4 18 ++ w.extractLsb' 0 4 :
      BitVec (42 + 18 + 4)) := by
    apply BitVec.eq_of_toNat_eq
    have h := w.isLt
    simp only [append_toNat, BitVec.extractLsb'_toNat, Nat.shiftRight_eq_div_pow]
    omega
  have e : w &&& (rowFor .readRgb).mask = (w.extractLsb' 22 42 ++ 0#18 ++ w.extractLsb' 0 4 :
      BitVec (42 + 18 + 4)) := by
    conv_lhs => rw [hw]
    change (_ &&& (BitVec.allOnes 42 ++ 0#18 ++ BitVec.allOnes 4 :
      BitVec (42 + 18 + 4))) = _
    simp only [BitVec.and_append, BitVec.and_zero, BitVec.and_allOnes]
  rw [OpRow.matchesWord, decide_eq_true_eq, e, ← BitVec.toNat_inj, ← BitVec.toNat_inj, ← BitVec.toNat_inj]
  generalize w.extractLsb' 0 4 = a
  generalize w.extractLsb' 22 42 = b
  have ha := a.isLt
  have hb := b.isLt
  simp only [append_toNat]
  simp [rowFor]
  omega

/-- A word in the row of readStatus: OP is its opcode and every must-be-zero bit of its format is 0. -/
theorem matchesWord_readStatus (w : CmdWord) : (rowFor .readStatus).matchesWord w = true ↔
    w.extractLsb' 0 4 = 6#4 ∧ w.extractLsb' 4 60 = 0#60 := by
  have hw : w = (w.extractLsb' 4 60 ++ w.extractLsb' 0 4 :
      BitVec (60 + 4)) := by
    apply BitVec.eq_of_toNat_eq
    have h := w.isLt
    simp only [append_toNat, BitVec.extractLsb'_toNat, Nat.shiftRight_eq_div_pow]
    omega
  have e : w &&& (rowFor .readStatus).mask = (w.extractLsb' 4 60 ++ w.extractLsb' 0 4 :
      BitVec (60 + 4)) := by
    conv_lhs => rw [hw]
    change (_ &&& (BitVec.allOnes 60 ++ BitVec.allOnes 4 :
      BitVec (60 + 4))) = _
    simp only [BitVec.and_append, BitVec.and_allOnes]
  rw [OpRow.matchesWord, decide_eq_true_eq, e, ← BitVec.toNat_inj, ← BitVec.toNat_inj, ← BitVec.toNat_inj]
  generalize w.extractLsb' 0 4 = a
  generalize w.extractLsb' 4 60 = b
  have ha := a.isLt
  have hb := b.isLt
  simp only [append_toNat]
  simp [rowFor]
  omega

/-- The numbers a byte sequence spells and the low bytes of a number undo each other (R45). -/
theorem leValue_leBytes (n v : Nat) : leValue (leBytes n v) = v % 256 ^ n := by
  induction n generalizing v with
  | zero => simp [leBytes, leValue, Nat.mod_one]
  | succ n ih =>
    rw [leBytes, leValue, ih, BitVec.toNat_ofNat, show 256 ^ (n + 1) = 256 * 256 ^ n by ring, Nat.mod_mul]

theorem leBytes_length (n v : Nat) : (leBytes n v).length = n := by
  induction n generalizing v with
  | zero => rfl
  | succ n ih => simp [leBytes, ih]

end Sys2Proof
end

