-- ==== Sys2Proof/Laws/Memory.lean ====
section
/-! SUPPORT. The memories: a read after a write, the canonical form kept by every operation, and equal reads of canonical
memories mean equal memories. -/

namespace Sys2Proof.Machine

theorem memLookup_memInsert (a b : Nat) (v : Byte) (m : Memory) :
    memLookup b (memInsert a v m) = if b = a then some v else memLookup b m := by
  induction m with
  | nil => simp [memInsert, memLookup, eq_comm]
  | cons c m ih =>
    obtain ⟨k, u⟩ := c
    simp only [memInsert]
    split_ifs <;> grind [memLookup]

theorem memLookup_memErase (a b : Nat) (m : Memory) :
    memLookup b (memErase a m) = if b = a then none else memLookup b m := by
  induction m with
  | nil => simp [memErase, memLookup]
  | cons c m ih =>
    obtain ⟨k, u⟩ := c
    simp only [memErase, List.filter_cons] at ih ⊢
    grind [memLookup]

/-- `MemRead` after `MemWrite` (R51): the written byte at its offset, the old byte elsewhere. -/
theorem memRead_memWrite (sp : Space) (a b : Nat) (v : Byte) (m : Memory) :
    memRead sp b (memWrite sp a v m) = if b = a then some v else memRead sp b m := by
  unfold memRead memWrite
  split_ifs with h1 h2 h2
  · simp [memLookup_memErase, h2, h1]
  · simp [memLookup_memErase, h2]
  · simp [memLookup_memInsert, h2]
  · simp [memLookup_memInsert, h2]

/-- A cell of FB is what `MemRead` gives. -/
theorem memRead_fb (a : Nat) (m : Memory) : memRead .fb a m = some (fbByte a m) := by
  unfold memRead fbByte spaceUnlisted
  cases memLookup a m <;> rfl

theorem memRead_rgb (a : Nat) (m : Memory) : memRead .rgb a m = memLookup a m := by
  unfold memRead spaceUnlisted
  cases memLookup a m <;> rfl

theorem fbByte_memWrite (a b : Nat) (v : Byte) (m : Memory) :
    fbByte b (memWrite .fb a v m) = if b = a then v else fbByte b m := by
  have h := memRead_memWrite .fb a b v m
  rw [memRead_fb, memRead_fb] at h
  split_ifs at h ⊢ <;> exact Option.some.inj h

theorem mem_of_memLookup {a : Nat} {v : Byte} {m : Memory} (h : memLookup a m = some v) : (a, v) ∈ m := by
  induction m with
  | nil => simp [memLookup] at h
  | cons c m ih =>
    obtain ⟨k, u⟩ := c
    simp only [memLookup] at h
    split_ifs at h with hk
    · rw [← hk, ← Option.some.inj h]
      exact List.mem_cons_self
    · exact List.mem_cons_of_mem _ (ih h)

theorem memLookup_of_mem {a : Nat} {v : Byte} {m : Memory} (hs : m.Pairwise (fun a b => a.1 < b.1))
    (h : (a, v) ∈ m) : memLookup a m = some v := by
  induction m with
  | nil => simp at h
  | cons c m ih =>
    obtain ⟨k, u⟩ := c
    rw [List.pairwise_cons] at hs
    rcases List.mem_cons.1 h with h | h
    · cases h; simp [memLookup]
    · have hk := hs.1 _ h
      simp only [memLookup]
      rw [if_neg (Nat.ne_of_lt hk), ih hs.2 h]

theorem mem_memInsert {a : Nat} {v : Byte} {m : Memory} {c : Host.Cell} (h : c ∈ memInsert a v m) :
    c = (a, v) ∨ c ∈ m := by
  induction m with
  | nil => simpa [memInsert] using h
  | cons d m ih =>
    obtain ⟨k, u⟩ := d
    simp only [memInsert] at h
    split_ifs at h with h1 h2
    · simpa using h
    · rcases List.mem_cons.1 h with h | h
      · exact .inl h
      · exact .inr (List.mem_cons_of_mem _ h)
    · rcases List.mem_cons.1 h with h | h
      · exact .inr (by simp [h])
      · exact (ih h).imp_right (List.mem_cons_of_mem _)

theorem memInsert_rising {a : Nat} {v : Byte} {m : Memory} (hs : m.Pairwise (fun a b => a.1 < b.1)) :
    (memInsert a v m).Pairwise (fun a b => a.1 < b.1) := by
  induction m with
  | nil => simp [memInsert]
  | cons d m ih =>
    obtain ⟨k, u⟩ := d
    have hs' := List.pairwise_cons.1 hs
    simp only [memInsert]
    split_ifs with h1 h2
    · refine List.pairwise_cons.2 ⟨fun c hc => ?_, hs⟩
      rcases List.mem_cons.1 hc with rfl | hc
      · exact h1
      · exact h1.trans (hs'.1 c hc)
    · exact List.pairwise_cons.2 ⟨fun c hc => h2 ▸ hs'.1 c hc, hs'.2⟩
    · refine List.pairwise_cons.2 ⟨fun c hc => ?_, ih hs'.2⟩
      rcases mem_memInsert hc with rfl | hc
      · exact lt_of_le_of_ne (not_lt.1 h1) (fun h => h2 h.symm)
      · exact hs'.1 c hc

/-- What a write leaves listed: the written cell, unless it reads as an unlisted offset does, and old cells elsewhere. -/
theorem mem_memWrite {sp : Space} {a : Nat} {v : Byte} {m : Memory} {c : Host.Cell} (h : c ∈ memWrite sp a v m) :
    (c = (a, v) ∧ some v ≠ spaceUnlisted sp) ∨ c ∈ m := by
  unfold memWrite at h
  split_ifs at h with h1
  · exact .inr (List.mem_of_mem_filter h)
  · exact (mem_memInsert h).imp_left (fun h => ⟨h, h1⟩)

/-- Every write inside its space keeps the canonical form. -/
theorem memWrite_wf {sp : Space} {a : Nat} {v : Byte} {m : Memory} (hm : Memory.wf sp m) (ha : a < spaceSize sp) :
    Memory.wf sp (memWrite sp a v m) := by
  refine ⟨?_, fun c hc => ?_⟩
  · unfold memWrite
    split_ifs
    · exact hm.1.filter _
    · exact memInsert_rising hm.1
  · rcases mem_memWrite hc with ⟨rfl, h⟩ | hc
    · exact ⟨ha, h⟩
    · exact hm.2 c hc

theorem nil_wf (sp : Space) : Memory.wf sp [] :=
  ⟨List.Pairwise.nil, fun _ hc => absurd hc List.not_mem_nil⟩

/-- Canonical memories of one space with equal reads are equal. -/
theorem memory_ext {sp : Space} {m n : Memory} (hm : Memory.wf sp m) (hn : Memory.wf sp n)
    (h : ∀ a, memRead sp a m = memRead sp a n) : m = n := by
  have key : ∀ {m n : Memory}, Memory.wf sp m → Memory.wf sp n → (∀ a, memRead sp a m = memRead sp a n) →
      ∀ c ∈ m, c ∈ n := by
    intro m n hm hn h c hc
    have h1 := memLookup_of_mem hm.1 (show (c.1, c.2) ∈ m from hc)
    have h2 := h c.1
    have h3 := (hm.2 c hc).2
    simp only [memRead, h1, Option.some_or] at h2
    cases h4 : memLookup c.1 n with
    | none => rw [h4, Option.none_or] at h2; exact absurd h2 h3
    | some u =>
      rw [h4, Option.some_or] at h2
      have := mem_of_memLookup h4
      rwa [← Option.some.inj h2] at this
  have hsub : ∀ c, c ∈ m ↔ c ∈ n := fun c => ⟨key hm hn h c, key hn hm (fun a => (h a).symm) c⟩
  have nodup : ∀ {m : Memory}, m.Pairwise (fun a b => a.1 < b.1) → m.Nodup := fun hm =>
    hm.imp (fun hab he => by rw [he] at hab; exact lt_irrefl _ hab)
  have hp : m.Perm n := (List.perm_ext_iff_of_nodup (nodup hm.1) (nodup hn.1)).2 hsub
  exact hp.eq_of_pairwise (fun a b _ _ h1 h2 => absurd h1 (lt_asymm h2)) hm.1 hn.1

/-! ## Cells of FB -/

theorem fbOff_lt {x y : Nat} (hx : x < Config.width) (hy : y < Config.height) : fbOff x y < Config.ncells := by
  simp only [fbOff, Config.width, Config.height, Config.ncells] at *
  omega

/-- Different cells have different offsets (R40). -/
theorem fbOff_inj {x y x' y' : Nat} (hx : x < Config.width) (hx' : x' < Config.width) :
    fbOff x y = fbOff x' y' ↔ x = x' ∧ y = y' := by
  simp only [fbOff, Config.width] at *
  omega

theorem fbByte_fbPut (x y b : Nat) (v : Byte) (m : Memory) :
    fbByte b (fbPut x y v m) = if b = fbOff x y then v else fbByte b m := fbByte_memWrite _ _ _ _

/-- Writing a list of pixels: a cell some pixel names holds the value, every other cell keeps its own. -/
theorem fbByte_fbPutAll (ps : List (Int × Int)) (v : Byte) (m : Memory) (b : Nat) :
    fbByte b (fbPutAll ps v m) = if ∃ p ∈ ps, b = fbOff p.1.toNat p.2.toNat then v else fbByte b m := by
  induction ps generalizing m with
  | nil => simp [fbPutAll]
  | cons p ps ih =>
    have hstep : fbPutAll (p :: ps) v m = fbPutAll ps v (fbPut p.1.toNat p.2.toNat v m) := rfl
    rw [hstep, ih, fbByte_fbPut]
    by_cases h1 : ∃ q ∈ ps, b = fbOff q.1.toNat q.2.toNat
    · rw [if_pos h1, if_pos (by obtain ⟨q, hq, h⟩ := h1; exact ⟨q, List.mem_cons_of_mem _ hq, h⟩)]
    · rw [if_neg h1]
      by_cases h2 : b = fbOff p.1.toNat p.2.toNat
      · rw [if_pos h2, if_pos ⟨p, List.mem_cons_self, h2⟩]
      · rw [if_neg h2, if_neg]
        rintro ⟨q, hq, h⟩
        rcases List.mem_cons.1 hq with rfl | hq
        · exact h2 h
        · exact h1 ⟨q, hq, h⟩

/-- Writing pixels that lie in FB keeps the canonical form. -/
theorem fbPutAll_wf {ps : List (Int × Int)} {v : Byte} {m : Memory} (hm : Memory.wf .fb m)
    (hps : ∀ p ∈ ps, fbOff p.1.toNat p.2.toNat < Config.ncells) : Memory.wf .fb (fbPutAll ps v m) := by
  induction ps generalizing m with
  | nil => exact hm
  | cons p ps ih =>
    exact ih (memWrite_wf hm (hps p List.mem_cons_self)) (fun q hq => hps q (List.mem_cons_of_mem _ hq))

theorem mem_fbPutAll {ps : List (Int × Int)} {v : Byte} {m : Memory} {c : Host.Cell} (h : c ∈ fbPutAll ps v m) :
    c.2 = v ∨ c ∈ m := by
  induction ps generalizing m with
  | nil => exact .inr h
  | cons p ps ih =>
    rcases ih h with h | h
    · exact .inl h
    · rcases mem_memWrite h with ⟨rfl, -⟩ | h
      · exact .inl rfl
      · exact .inr h

/-! ## RGB as CONVERT leaves it -/

theorem convRange_succ (fb : Memory) (o n : Nat) :
    convRange fb o (n + 1) = tripleCells o (pal (cellIndex (fbByte o fb))) ++ convRange fb (o + 1) n := by
  simp [convRange, List.range'_succ]

/-- The byte `convRange` lists at an offset. -/
theorem memLookup_convRange (fb : Memory) (n o i : Nat) :
    memLookup i (convRange fb o n) =
      if 3 * o ≤ i ∧ i < 3 * (o + n) then some (tripleByte (pal (cellIndex (fbByte (i / 3) fb))) (i % 3)) else none := by
  induction n generalizing o with
  | zero =>
    rw [if_neg (by omega)]
    rfl
  | succ n ih =>
    rw [convRange_succ]
    simp only [tripleCells, Config.bytesPerPixel, List.cons_append, List.nil_append, memLookup, ih]
    by_cases h : 3 * o ≤ i ∧ i < 3 * (o + 1)
    · have hd : i / 3 = o := by omega
      rw [if_pos (show 3 * o ≤ i ∧ i < 3 * (o + (n + 1)) by omega), hd]
      obtain h | h | h : i = 3 * o ∨ i = 3 * o + 1 ∨ i = 3 * o + 2 := by omega
      · have hm : i % 3 = 0 := by omega
        rw [if_pos h.symm, hm]
        rfl
      · have hm : i % 3 = 1 := by omega
        rw [if_neg (by omega), if_pos h.symm, hm]
        rfl
      · have hm : i % 3 = 2 := by omega
        rw [if_neg (by omega), if_neg (by omega), if_pos h.symm, hm]
        rfl
    · rw [if_neg (by omega), if_neg (by omega), if_neg (by omega)]
      by_cases h' : 3 * (o + 1) ≤ i ∧ i < 3 * (o + 1 + n)
      · rw [if_pos h', if_pos (by omega)]
      · rw [if_neg h', if_neg (by omega)]

/-- The content of RGB after a CONVERT (R113), by byte offset. -/
theorem memRead_conv (fb : Memory) (i : Nat) :
    memRead .rgb i (conv fb) =
      if i < Config.nrgb then some (tripleByte (pal (cellIndex (fbByte (i / 3) fb))) (i % 3)) else none := by
  rw [memRead_rgb, conv, memLookup_convRange]
  refine if_congr ?_ rfl rfl
  simp only [Config.nrgb, Config.bytesPerPixel]
  omega

theorem mem_convRange {fb : Memory} {o n : Nat} {c : Host.Cell} (h : c ∈ convRange fb o n) :
    3 * o ≤ c.1 ∧ c.1 < 3 * (o + n) := by
  induction n generalizing o with
  | zero => exact absurd h (List.not_mem_nil)
  | succ n ih =>
    rw [convRange_succ, List.mem_append] at h
    rcases h with h | h
    · simp only [tripleCells, Config.bytesPerPixel, List.mem_cons, List.not_mem_nil, or_false] at h
      rcases h with rfl | rfl | rfl <;> constructor <;> dsimp only <;> omega
    · have := ih h
      omega

theorem convRange_rising (fb : Memory) (o n : Nat) : (convRange fb o n).Pairwise (fun a b => a.1 < b.1) := by
  induction n generalizing o with
  | zero => exact List.Pairwise.nil
  | succ n ih =>
    rw [convRange_succ, List.pairwise_append]
    refine ⟨by simp [tripleCells], ih (o + 1), fun c hc d hd => ?_⟩
    have hd := mem_convRange hd
    simp only [tripleCells, Config.bytesPerPixel, List.mem_cons, List.not_mem_nil, or_false] at hc
    rcases hc with rfl | rfl | rfl <;> dsimp only <;> omega

/-- CONVERT leaves RGB in canonical form. -/
theorem conv_wf (fb : Memory) : Memory.wf .rgb (conv fb) := by
  refine ⟨convRange_rising fb 0 _, fun c hc => ⟨?_, by simp [spaceUnlisted]⟩⟩
  have := mem_convRange hc
  simp only [spaceSize, Config.nrgb, Config.bytesPerPixel]
  omega

end Sys2Proof.Machine
end

