-- ==== Sys2Proof/Laws/State.lean ====
section
/-! SUPPORT. What each named update of the state does to each field: one lemma per field and update. -/

namespace Sys2Proof.Machine

@[simp] theorem setFb_fb (m : Memory) (s : State) : (setFb m s).fb = m := rfl
@[simp] theorem setFb_rgb (m : Memory) (s : State) : (setFb m s).rgb = s.rgb := rfl
@[simp] theorem setFb_status (m : Memory) (s : State) : (setFb m s).status = s.status := rfl
@[simp] theorem setFb_inputs (m : Memory) (s : State) : (setFb m s).inputs = s.inputs := rfl
@[simp] theorem setFb_responses (m : Memory) (s : State) : (setFb m s).responses = s.responses := rfl
@[simp] theorem setFb_uploads (m : Memory) (s : State) : (setFb m s).uploads = s.uploads := rfl

@[simp] theorem setRgb_fb (m : Memory) (s : State) : (setRgb m s).fb = s.fb := rfl
@[simp] theorem setRgb_rgb (m : Memory) (s : State) : (setRgb m s).rgb = m := rfl
@[simp] theorem setRgb_status (m : Memory) (s : State) : (setRgb m s).status = s.status := rfl
@[simp] theorem setRgb_inputs (m : Memory) (s : State) : (setRgb m s).inputs = s.inputs := rfl
@[simp] theorem setRgb_responses (m : Memory) (s : State) : (setRgb m s).responses = s.responses := rfl
@[simp] theorem setRgb_uploads (m : Memory) (s : State) : (setRgb m s).uploads = s.uploads := rfl

@[simp] theorem setStatus_fb (st : Status) (s : State) : (setStatus st s).fb = s.fb := rfl
@[simp] theorem setStatus_rgb (st : Status) (s : State) : (setStatus st s).rgb = s.rgb := rfl
@[simp] theorem setStatus_status (st : Status) (s : State) : (setStatus st s).status = st := rfl
@[simp] theorem setStatus_inputs (st : Status) (s : State) : (setStatus st s).inputs = s.inputs := rfl
@[simp] theorem setStatus_responses (st : Status) (s : State) : (setStatus st s).responses = s.responses := rfl
@[simp] theorem setStatus_uploads (st : Status) (s : State) : (setStatus st s).uploads = s.uploads := rfl

@[simp] theorem setInputs_fb (l : List HostInput) (s : State) : (setInputs l s).fb = s.fb := rfl
@[simp] theorem setInputs_rgb (l : List HostInput) (s : State) : (setInputs l s).rgb = s.rgb := rfl
@[simp] theorem setInputs_status (l : List HostInput) (s : State) : (setInputs l s).status = s.status := rfl
@[simp] theorem setInputs_inputs (l : List HostInput) (s : State) : (setInputs l s).inputs = l := rfl
@[simp] theorem setInputs_responses (l : List HostInput) (s : State) : (setInputs l s).responses = s.responses := rfl
@[simp] theorem setInputs_uploads (l : List HostInput) (s : State) : (setInputs l s).uploads = s.uploads := rfl

@[simp] theorem respond_fb (c : Cause) (d : BitVec 16) (s : State) : (respond c d s).fb = s.fb := rfl
@[simp] theorem respond_rgb (c : Cause) (d : BitVec 16) (s : State) : (respond c d s).rgb = s.rgb := rfl
@[simp] theorem respond_status (c : Cause) (d : BitVec 16) (s : State) : (respond c d s).status = s.status := rfl
@[simp] theorem respond_inputs (c : Cause) (d : BitVec 16) (s : State) : (respond c d s).inputs = s.inputs := rfl
@[simp] theorem respond_responses (c : Cause) (d : BitVec 16) (s : State) : (respond c d s).responses = respWord c d :: s.responses := rfl
@[simp] theorem respond_uploads (c : Cause) (d : BitVec 16) (s : State) : (respond c d s).uploads = s.uploads := rfl

@[simp] theorem recordUpload_fb (s : State) : (recordUpload s).fb = s.fb := rfl
@[simp] theorem recordUpload_rgb (s : State) : (recordUpload s).rgb = s.rgb := rfl
@[simp] theorem recordUpload_status (s : State) : (recordUpload s).status = s.status := rfl
@[simp] theorem recordUpload_inputs (s : State) : (recordUpload s).inputs = s.inputs := rfl
@[simp] theorem recordUpload_responses (s : State) : (recordUpload s).responses = s.responses := rfl
@[simp] theorem recordUpload_uploads (s : State) : (recordUpload s).uploads = s.rgb :: s.uploads := rfl

@[simp] theorem raiseFault_fb (c : Cause) (s : State) : (raiseFault c s).fb = s.fb := rfl
@[simp] theorem raiseFault_rgb (c : Cause) (s : State) : (raiseFault c s).rgb = s.rgb := rfl
@[simp] theorem raiseFault_status (c : Cause) (s : State) : (raiseFault c s).status = haltStatus c s.status := rfl
@[simp] theorem raiseFault_inputs (c : Cause) (s : State) : (raiseFault c s).inputs = s.inputs := rfl
@[simp] theorem raiseFault_responses (c : Cause) (s : State) : (raiseFault c s).responses = respWord c 0#16 :: s.responses := rfl
@[simp] theorem raiseFault_uploads (c : Cause) (s : State) : (raiseFault c s).uploads = s.uploads := rfl

@[simp] theorem haltedReply_fb (s : State) : (haltedReply s).fb = s.fb := rfl
@[simp] theorem haltedReply_rgb (s : State) : (haltedReply s).rgb = s.rgb := rfl
@[simp] theorem haltedReply_status (s : State) : (haltedReply s).status = s.status := rfl
@[simp] theorem haltedReply_inputs (s : State) : (haltedReply s).inputs = s.inputs := rfl
@[simp] theorem haltedReply_responses (s : State) : (haltedReply s).responses = respWord .halted 0#16 :: s.responses := rfl
@[simp] theorem haltedReply_uploads (s : State) : (haltedReply s).uploads = s.uploads := rfl

@[simp] theorem applyReset_fb (s : State) : (applyReset s).fb = [] := rfl
@[simp] theorem applyReset_rgb (s : State) : (applyReset s).rgb = [] := rfl
@[simp] theorem applyReset_status (s : State) : (applyReset s).status = Status.reset := rfl
@[simp] theorem applyReset_inputs (s : State) : (applyReset s).inputs = s.inputs := rfl
@[simp] theorem applyReset_responses (s : State) : (applyReset s).responses = s.responses := rfl
@[simp] theorem applyReset_uploads (s : State) : (applyReset s).uploads = s.uploads := rfl

@[simp] theorem haltStatus_halted (c : Cause) (st : Status) : (haltStatus c st).halted = true := rfl
@[simp] theorem haltStatus_rgbValid (c : Cause) (st : Status) : (haltStatus c st).rgbValid = st.rgbValid := rfl
@[simp] theorem haltStatus_firstCause (c : Cause) (st : Status) : (haltStatus c st).firstCause = c := rfl
@[simp] theorem validStatus_halted (st : Status) : (validStatus st).halted = st.halted := rfl
@[simp] theorem validStatus_rgbValid (st : Status) : (validStatus st).rgbValid = true := rfl
@[simp] theorem validStatus_firstCause (st : Status) : (validStatus st).firstCause = st.firstCause := rfl

end Sys2Proof.Machine
end

