-- ==== Sys2Proof/Laws/Exec.lean ====
section
/-! SUPPORT. What the shared operations can do, said once each: the checks, `serve`, each meaning, a command word, a step. -/

namespace Sys2Proof.Machine

/-! ## The checks -/

theorem require_eq_none {ok : Bool} {c : Cause} : require ok c = none ↔ ok = true := by
  cases ok <;> simp [require]

theorem require_eq_some {ok : Bool} {c d : Cause} : require ok c = some d ↔ ok = false ∧ d = c := by
  cases ok <;> simp [require, eq_comm]

theorem checkX_eq_none {x : Nat} : checkX x = none ↔ x < Config.width := by simp [checkX, require_eq_none]
theorem checkY_eq_none {y : Nat} : checkY y = none ↔ y < Config.height := by simp [checkY, require_eq_none]
theorem checkColor_eq_none {c : Nat} : checkColor c = none ↔ c ≤ Config.indexMax := by
  simp [checkColor, require_eq_none]
theorem checkOff_eq_none {off : Nat} : checkOff off = none ↔ off < Config.nrgb := by simp [checkOff, require_eq_none]
theorem checkValid_eq_none {st : Status} : checkValid st = none ↔ st.rgbValid = true := by
  simp [checkValid, require_eq_none]

/-- CONVERT's check passes exactly when every cell of FB is a palette index (R111). -/
theorem checkIndices_eq_none {m : Memory} :
    checkIndices m = none ↔ ∀ o, o < Config.ncells → (fbByte o m).toNat ≤ Config.indexMax := by
  simp only [checkIndices, require_eq_none, List.all_eq_true, Bool.or_eq_true, Bool.not_eq_true', decide_eq_false_iff_not,
    decide_eq_true_eq]
  constructor
  · intro h o ho
    cases hl : memLookup o m with
    | none => simp [fbByte, hl, Config.fbResetValue]
    | some v => exact (h _ (mem_of_memLookup hl)).resolve_left (not_not.2 ho)
  · intro h c _
    by_cases hc : c.1 < Config.ncells
    · exact .inr (h _ hc)
    · exact .inl hc

theorem checkPoint_eq_none {x y : Nat} : checkPoint x y = none ↔ x < Config.width ∧ y < Config.height := by
  simp [checkPoint, Option.or_eq_none_iff, checkX_eq_none, checkY_eq_none]

theorem checkPointColor_eq_none {x y c : Nat} :
    checkPointColor x y c = none ↔ x < Config.width ∧ y < Config.height ∧ c ≤ Config.indexMax := by
  simp [checkPointColor, Option.or_eq_none_iff, checkPoint_eq_none, checkColor_eq_none, and_assoc]

theorem checkLine_eq_none {x0 y0 x1 y1 c : Nat} :
    checkLine x0 y0 x1 y1 c = none ↔
      x0 < Config.width ∧ y0 < Config.height ∧ x1 < Config.width ∧ y1 < Config.height ∧ c ≤ Config.indexMax := by
  simp [checkLine, Option.or_eq_none_iff, checkPoint_eq_none, checkColor_eq_none, and_assoc]

/-! ## `serve` -/

theorem serve_halted {check : State → Option Cause} {run : State → Result} {s : State} (h : s.status.halted = true) :
    serve check run s = .next (haltedReply s) := by simp [serve, h]

theorem serve_fault {check : State → Option Cause} {run : State → Result} {s : State} {c : Cause}
    (h : s.status.halted = false) (hc : check s = some c) : serve check run s = .next (raiseFault c s) := by
  simp [serve, h, hc]

theorem serve_run {check : State → Option Cause} {run : State → Result} {s : State}
    (h : s.status.halted = false) (hc : check s = none) : serve check run s = run s := by simp [serve, h, hc]

/-- Everything `serve` can do. -/
theorem serve_cases {check : State → Option Cause} {run : State → Result} {s t : State}
    (h : serve check run s = .next t) :
    (s.status.halted = true ∧ t = haltedReply s) ∨
      (s.status.halted = false ∧ ∃ c, check s = some c ∧ t = raiseFault c s) ∨
      (s.status.halted = false ∧ check s = none ∧ run s = .next t) := by
  cases hh : s.status.halted with
  | true => rw [serve_halted hh] at h; cases h; exact .inl ⟨rfl, rfl⟩
  | false =>
    cases hc : check s with
    | some c => rw [serve_fault hh hc] at h; cases h; exact .inr (.inl ⟨rfl, c, rfl, rfl⟩)
    | none => rw [serve_run hh hc] at h; exact .inr (.inr ⟨rfl, rfl, h⟩)

/-! ## The meanings -/

/-- Everything a command can do when it answers a next state: the halted answer, a fault, or its own effect. -/
theorem exec_cases {i : Instr} {s t : State} (h : exec i s = .next t) :
    (s.status.halted = true ∧ i ≠ .readStatus ∧ t = haltedReply s) ∨
    (s.status.halted = false ∧ ∃ c, c ≠ .none ∧ c ≠ .halted ∧ t = raiseFault c s) ∨
    (i = .readStatus ∧ t = respond .none (statusWord s.status) s) ∨
    (s.status.halted = false ∧
      ((∃ x y c, i = .plot x y c ∧ x < Config.width ∧ y < Config.height ∧ c ≤ Config.indexMax ∧
          t = respond .none 0#16 (setFb (fbPut x y (BitVec.ofNat 8 c) s.fb) s)) ∨
       (∃ x y, i = .readPixel x y ∧ t = respond .none ((fbRead x y s).setWidth 16) s) ∨
       (∃ x0 y0 x1 y1 c, i = .drawLine x0 y0 x1 y1 c ∧ x0 < Config.width ∧ y0 < Config.height ∧ x1 < Config.width ∧
          y1 < Config.height ∧ c ≤ Config.indexMax ∧
          t = respond .none 0#16 (setFb (fbPutAll (linePixels x0 y0 x1 y1) (BitVec.ofNat 8 c) s.fb) s)) ∨
       (i = .convert ∧ t = respond .none 0#16 (setStatus (validStatus s.status) (setRgb (conv s.fb) s))) ∨
       (∃ off v, i = .readRgb off ∧ off < Config.nrgb ∧ s.status.rgbValid = true ∧ rgbRead off s = some v ∧
          t = respond .none (v.setWidth 16) s))) := by
  have req : ∀ {ok c d}, require ok c = some d → d = c := fun h => (require_eq_some.1 h).2
  cases i with
  | plot x y c =>
    simp only [exec, execPlot] at h
    rcases serve_cases h with ⟨hh, rfl⟩ | ⟨hh, d, hd, rfl⟩ | ⟨hh, hc, hr⟩
    · exact .inl ⟨hh, by simp, rfl⟩
    · refine .inr (.inl ⟨hh, d, ?_, ?_, rfl⟩) <;>
        simp only [checkPointColor, checkPoint, checkX, checkY, checkColor, Option.or_eq_some_iff, require_eq_some] at hd <;>
        rintro rfl <;> simp at hd
    · cases hr
      obtain ⟨hx, hy, hc⟩ := checkPointColor_eq_none.1 hc
      exact .inr (.inr (.inr ⟨hh, .inl ⟨x, y, c, rfl, hx, hy, hc, rfl⟩⟩))
  | readPixel x y =>
    simp only [exec, execReadPixel] at h
    rcases serve_cases h with ⟨hh, rfl⟩ | ⟨hh, d, hd, rfl⟩ | ⟨hh, hc, hr⟩
    · exact .inl ⟨hh, by simp, rfl⟩
    · refine .inr (.inl ⟨hh, d, ?_, ?_, rfl⟩) <;>
        simp only [checkPoint, checkX, checkY, Option.or_eq_some_iff, require_eq_some] at hd <;>
        rintro rfl <;> simp at hd
    · cases hr
      exact .inr (.inr (.inr ⟨hh, .inr (.inl ⟨x, y, rfl, rfl⟩)⟩))
  | drawLine x0 y0 x1 y1 c =>
    simp only [exec, execDrawLine] at h
    rcases serve_cases h with ⟨hh, rfl⟩ | ⟨hh, d, hd, rfl⟩ | ⟨hh, hc, hr⟩
    · exact .inl ⟨hh, by simp, rfl⟩
    · refine .inr (.inl ⟨hh, d, ?_, ?_, rfl⟩) <;>
        simp only [checkLine, checkPoint, checkX, checkY, checkColor, Option.or_eq_some_iff, require_eq_some] at hd <;>
        rintro rfl <;> simp at hd
    · cases hr
      obtain ⟨h1, h2, h3, h4, h5⟩ := checkLine_eq_none.1 hc
      exact .inr (.inr (.inr ⟨hh, .inr (.inr (.inl ⟨x0, y0, x1, y1, c, rfl, h1, h2, h3, h4, h5, rfl⟩))⟩))
  | convert =>
    simp only [exec, execConvert] at h
    rcases serve_cases h with ⟨hh, rfl⟩ | ⟨hh, d, hd, rfl⟩ | ⟨hh, hc, hr⟩
    · exact .inl ⟨hh, by simp, rfl⟩
    · obtain rfl := req hd
      exact .inr (.inl ⟨hh, _, by simp, by simp, rfl⟩)
    · cases hr
      exact .inr (.inr (.inr ⟨hh, .inr (.inr (.inr (.inl ⟨rfl, rfl⟩)))⟩))
  | readRgb off =>
    simp only [exec, execReadRgb] at h
    rcases serve_cases h with ⟨hh, rfl⟩ | ⟨hh, d, hd, rfl⟩ | ⟨hh, hc, hr⟩
    · exact .inl ⟨hh, by simp, rfl⟩
    · refine .inr (.inl ⟨hh, d, ?_, ?_, rfl⟩) <;>
        simp only [checkOff, checkValid, Option.or_eq_some_iff, require_eq_some] at hd <;>
        rintro rfl <;> simp at hd
    · obtain ⟨ho, hv⟩ := Option.or_eq_none_iff.1 hc
      split at hr
      · rename_i v hv'
        cases hr
        exact .inr (.inr (.inr ⟨hh, .inr (.inr (.inr (.inr
          ⟨off, v, rfl, checkOff_eq_none.1 ho, checkValid_eq_none.1 hv, hv', rfl⟩)))⟩))
      · cases hr
  | readStatus => cases h; exact .inr (.inr (.inl ⟨rfl, rfl⟩))

/-- Everything a command word can do when it answers a next state: its command's doing, or the answer to an illegal word. -/
theorem commandMove_cases {w : CmdWord} {s t : State} (h : commandMove w s = .next t) :
    (∃ i, decodeWord w = .ok i ∧ exec i s = .next t) ∨
      (∃ e, decodeWord w = .error e ∧
        ((s.status.halted = true ∧ t = haltedReply s) ∨
         (s.status.halted = false ∧ t = raiseFault .illegalCommand s))) := by
  unfold commandMove at h
  split at h
  · exact .inl ⟨_, ‹_›, h⟩
  · refine .inr ⟨_, ‹_›, ?_⟩
    rcases serve_cases h with ⟨hh, rfl⟩ | ⟨hh, d, hd, rfl⟩ | ⟨hh, hc, -⟩
    · exact .inl ⟨hh, rfl⟩
    · cases hd; exact .inr ⟨hh, rfl⟩
    · cases hc

/-- Everything a move of the host can do to the block when it answers a next state. -/
theorem hostMove_cases {m : HostInput} {s t : State} (h : hostMove m s = .next t) :
    (∃ w, m = .command w ∧ commandMove w s = .next t) ∨ (m = .reset ∧ t = applyReset s) ∨
      (m ≠ .reset ∧ sameBlock s t ∧ t.responses = s.responses) := by
  cases m with
  | command w => exact .inl ⟨w, rfl, h⟩
  | reset => cases h; exact .inr (.inl ⟨rfl, rfl⟩)
  | upload =>
    simp only [hostMove, uploadMove] at h
    split_ifs at h
    cases h
    exact .inr (.inr ⟨by simp, ⟨rfl, rfl, rfl⟩, rfl⟩)
  | resize a b => cases h; exact .inr (.inr ⟨by simp, ⟨rfl, rfl, rfl⟩, rfl⟩)
  | presentTick a => cases h; cases a <;> exact .inr (.inr ⟨by simp, ⟨rfl, rfl, rfl⟩, rfl⟩)

/-- Everything a step can do when it answers a next state. -/
theorem step_cases {s t : State} (h : step s = .next t) :
    (s.inputs = [] ∧ t = s) ∨
      ∃ rest, (∃ w, s.inputs = .command w :: rest ∧ commandMove w (setInputs rest s) = .next t) ∨
        (s.inputs = .reset :: rest ∧ t = applyReset (setInputs rest s)) ∨
        (s.inputs = .upload :: rest ∧ s.status.rgbValid = true ∧ t = recordUpload (setInputs rest s)) ∨
        (∃ a b, s.inputs = .resize a b :: rest ∧ t = setInputs rest s) ∨
        (∃ a, s.inputs = .presentTick a :: rest ∧ t = tickMove a (setInputs rest s)) := by
  unfold step nextMove at h
  split at h
  · exact .inl ⟨‹_›, (Host.Outcome.next.inj h).symm⟩
  · rename_i m rest hm
    refine .inr ⟨rest, ?_⟩
    cases m with
    | command w => exact .inl ⟨w, hm, h⟩
    | reset => exact .inr (.inl ⟨hm, (Host.Outcome.next.inj h).symm⟩)
    | upload =>
      cases hv : s.status.rgbValid with
      | true =>
        simp only [hostMove, uploadMove, setInputs_status, hv, if_true] at h
        exact .inr (.inr (.inl ⟨hm, rfl, (Host.Outcome.next.inj h).symm⟩))
      | false =>
        simp only [hostMove, uploadMove, setInputs_status, hv] at h
        cases h
    | resize a b => exact .inr (.inr (.inr (.inl ⟨a, b, hm, (Host.Outcome.next.inj h).symm⟩)))
    | presentTick a => exact .inr (.inr (.inr (.inr ⟨a, hm, (Host.Outcome.next.inj h).symm⟩)))

/-- After a CONVERT every byte of RGB has a value (R23). -/
theorem conv_full (fb : Memory) : rgbFull (conv fb) := by
  intro i hi
  rw [memRead_conv, if_pos hi]
  rfl

/-- A run of one more step is a step, then the rest of the run. -/
theorem runSteps_succ {n : Nat} {s u : State} :
    runSteps (n + 1) s = .next u ↔ ∃ t, step s = .next t ∧ runSteps n t = .next u := by
  cases h : step s <;> simp [runSteps, h]

end Sys2Proof.Machine
end

