-- ==== Sys2Proof/Laws/Flags.lean ====
section
/-! SUPPORT. The response word and the STATUS word as numbers. -/

namespace Sys2Proof.Machine

theorem causeCode_inj {c d : Cause} (h : causeCode c = causeCode d) : c = d := by
  cases c <;> cases d <;> first | rfl | exact absurd h (by decide)

/-- The number of a response word (R68): DATA counts 2^8, CAUSE counts 1. -/
theorem respWord_toNat (c : Cause) (d : BitVec 16) :
    (respWord c d).toNat = 256 * d.toNat + (causeCode c).toNat := by
  simp only [respWord, append_toNat, BitVec.toNat_ofNat]
  omega

/-- The number of the STATUS word (R26). -/
theorem statusWord_toNat (st : Status) :
    (statusWord st).toNat = 16 * (causeCode st.firstCause).toNat + 2 * st.rgbValid.toNat + st.halted.toNat := by
  obtain ⟨h, v, c⟩ := st
  cases h <;> cases v <;> cases c <;> rfl

/-- The fields of a response word (R68). -/
theorem respWord_fields (c : Cause) (d : BitVec 16) :
    (respWord c d).extractLsb' 0 4 = causeCode c ∧ (respWord c d).extractLsb' 4 4 = 0#4 ∧
      (respWord c d).extractLsb' 8 16 = d ∧ (respWord c d).extractLsb' 24 8 = 0#8 := by
  have h := respWord_toNat c d
  have h1 := d.isLt
  have h2 := (causeCode c).isLt
  refine ⟨?_, ?_, ?_, ?_⟩ <;> apply BitVec.eq_of_toNat_eq <;>
    simp only [BitVec.extractLsb'_toNat, Nat.shiftRight_eq_div_pow, h] <;> simp <;> omega

end Sys2Proof.Machine
end

