-- ==== Sys2Proof/Laws/PerInstr.lean ====
section
/-! SUPPORT. The family EncodedRow: every command's encoding, whatever its operands, belongs to its own row of the opcode map
(30_encoding.md R61 to R67): each must-be-zero bit of its format is 0 and OP is its opcode. -/

namespace Sys2Proof.Laws.EncodedRow

/-- The encoding of `i` matches the row `i` stands in. -/
def Statement (i : Instr) : Prop := (rowFor (rowOf i)).matchesWord (encode i) = true

theorem plot (x y c : Nat) : Statement (.plot x y c) := by
  refine decide_eq_true ?_
  change (0#18 ++ BitVec.ofNat 8 c ++ 0#17 ++ BitVec.ofNat 8 y ++ BitVec.ofNat 9 x ++ 0x1#4 :
      BitVec (18 + 8 + 17 + 8 + 9 + 4)) &&&
    (BitVec.allOnes 18 ++ 0#8 ++ BitVec.allOnes 17 ++ 0#8 ++ 0#9 ++ 0xF#4 : BitVec (18 + 8 + 17 + 8 + 9 + 4)) = 0x1#64
  simp only [BitVec.and_append, BitVec.zero_and, BitVec.and_zero]
  decide

theorem readPixel (x y : Nat) : Statement (.readPixel x y) := by
  refine decide_eq_true ?_
  change (0#18 ++ 0#8 ++ 0#17 ++ BitVec.ofNat 8 y ++ BitVec.ofNat 9 x ++ 0x2#4 : BitVec (18 + 8 + 17 + 8 + 9 + 4)) &&&
    (BitVec.allOnes 18 ++ BitVec.allOnes 8 ++ BitVec.allOnes 17 ++ 0#8 ++ 0#9 ++ 0xF#4 :
      BitVec (18 + 8 + 17 + 8 + 9 + 4)) = 0x2#64
  simp only [BitVec.and_append, BitVec.zero_and, BitVec.and_zero]
  decide

theorem drawLine (x0 y0 x1 y1 c : Nat) : Statement (.drawLine x0 y0 x1 y1 c) := by
  refine decide_eq_true ?_
  change (0#18 ++ BitVec.ofNat 8 c ++ BitVec.ofNat 8 y1 ++ BitVec.ofNat 9 x1 ++ BitVec.ofNat 8 y0 ++ BitVec.ofNat 9 x0 ++
      0x3#4 : BitVec (18 + 8 + 8 + 9 + 8 + 9 + 4)) &&&
    (BitVec.allOnes 18 ++ 0#8 ++ 0#8 ++ 0#9 ++ 0#8 ++ 0#9 ++ 0xF#4 : BitVec (18 + 8 + 8 + 9 + 8 + 9 + 4)) = 0x3#64
  simp only [BitVec.and_append, BitVec.zero_and, BitVec.and_zero]
  decide

theorem convert : Statement .convert := by unfold Statement; decide

theorem readRgb (off : Nat) : Statement (.readRgb off) := by
  refine decide_eq_true ?_
  change (0#42 ++ BitVec.ofNat 18 off ++ 0x5#4 : BitVec (42 + 18 + 4)) &&&
    (BitVec.allOnes 42 ++ 0#18 ++ 0xF#4 : BitVec (42 + 18 + 4)) = 0x5#64
  simp only [BitVec.and_append, BitVec.zero_and, BitVec.and_zero]
  decide

theorem readStatus : Statement .readStatus := by unfold Statement; decide

end Sys2Proof.Laws.EncodedRow
end

