-- ==== Sys2Proof/Laws/Rasterizer.lean ====
section
/-! SUPPORT. The rasterizer's loops: how many working values a run has, and what one iteration does to the working values of
the closed form (41_line_rasterizer.md R95, R102). -/

namespace Sys2Proof.Machine

theorem rasterRun_length (f : Raster → Raster) (n : Nat) (r : Raster) : (rasterRun f n r).length = n := by
  induction n generalizing r with
  | zero => rfl
  | succ n ih => simp [rasterRun, ih]

/-- A run whose iteration carries `g k` to `g (k + 1)` yields `g` one after the other. -/
theorem rasterRun_eq_map (f : Raster → Raster) (g : Nat → Raster) (n k : Nat)
    (h : ∀ j, k ≤ j → j < k + n → f (g j) = g (j + 1)) :
    rasterRun f n (g k) = (List.range' (k + 1) n).map g := by
  induction n generalizing k with
  | zero => rfl
  | succ n ih =>
    rw [rasterRun, h k le_rfl (by omega), ih (k + 1) (fun j h1 h2 => h j (by omega) (by omega)), List.range'_succ,
      List.map_cons]

/-- Half of `M` lies below `M`: the offset at step 0 is 0. -/
theorem minorOffset_zero (major minor : Nat) : minorOffset major minor 0 = 0 := by
  unfold minorOffset
  rcases Nat.eq_zero_or_pos major with h | h
  · simp [h]
  · rw [Nat.zero_mul, Nat.add_zero, Nat.div_eq_of_lt (Nat.div_lt_self h (by decide))]

/-- One more major step adds `minor` to the sum: the offset grows by one exactly when the remainder reaches `major`. -/
theorem minorOffset_succ {major minor : Nat} (hm : minor ≤ major) (hM : 0 < major) (k : Nat) :
    if major ≤ (major / 2 + k * minor) % major + minor then
      minorOffset major minor (k + 1) = minorOffset major minor k + 1 ∧
        (major / 2 + (k + 1) * minor) % major + major = (major / 2 + k * minor) % major + minor
    else
      minorOffset major minor (k + 1) = minorOffset major minor k ∧
        (major / 2 + (k + 1) * minor) % major = (major / 2 + k * minor) % major + minor := by
  unfold minorOffset
  have e : major / 2 + (k + 1) * minor = major / 2 + k * minor + minor := by ring
  rw [e]
  generalize major / 2 + k * minor = a
  have hlt := Nat.mod_lt a hM
  have hd := Nat.div_add_mod a major
  split_ifs with h
  · obtain ⟨h1, h2⟩ := (Nat.div_mod_unique (a := a + minor) (c := a % major + minor - major) (d := a / major + 1) hM).2
      ⟨by rw [Nat.mul_add, Nat.mul_one]; omega, by omega⟩
    rw [h1, h2]
    omega
  · obtain ⟨h1, h2⟩ := (Nat.div_mod_unique (a := a + minor) (c := a % major + minor) (d := a / major) hM).2
      ⟨by omega, by omega⟩
    rw [h1, h2]
    omega

/-- The working values after `k` iterations of the horizontal branch, in closed form. -/
def rasterAtH (x0 y0 : Nat) (d : Deltas) (k : Nat) : Raster where
  ex := ((d.dyabs / 2 : Nat) : Int)
  ey := (((d.dxabs / 2 + k * d.dyabs) % d.dxabs : Nat) : Int)
  px := x0 + d.sdx * k
  py := y0 + d.sdy * (minorOffset d.dxabs d.dyabs k : Nat)

/-- The working values after `k` iterations of the vertical branch, in closed form. -/
def rasterAtV (x0 y0 : Nat) (d : Deltas) (k : Nat) : Raster where
  ex := (((d.dyabs / 2 + k * d.dxabs) % d.dyabs : Nat) : Int)
  ey := ((d.dxabs / 2 : Nat) : Int)
  px := x0 + d.sdx * (minorOffset d.dyabs d.dxabs k : Nat)
  py := y0 + d.sdy * k

theorem rasterStart_eq_atH (x0 y0 : Nat) {d : Deltas} (h : 0 < d.dxabs) : rasterStart x0 y0 d = rasterAtH x0 y0 d 0 := by
  simp [rasterStart, rasterAtH, minorOffset_zero, Nat.mod_eq_of_lt (Nat.div_lt_self h (by decide : 1 < 2))]

theorem rasterStart_eq_atV (x0 y0 : Nat) {d : Deltas} (h : 0 < d.dyabs) : rasterStart x0 y0 d = rasterAtV x0 y0 d 0 := by
  simp [rasterStart, rasterAtV, minorOffset_zero, Nat.mod_eq_of_lt (Nat.div_lt_self h (by decide : 1 < 2))]

/-- What one horizontal iteration does, both ways of its test. -/
theorem stepHorizontal_of_le {d : Deltas} {r : Raster} (h : (d.dxabs : Int) ≤ r.ey + d.dyabs) :
    stepHorizontal d r = ⟨r.ex, r.ey + d.dyabs - d.dxabs, r.px + d.sdx, r.py + d.sdy⟩ := if_pos h

theorem stepHorizontal_of_lt {d : Deltas} {r : Raster} (h : r.ey + d.dyabs < d.dxabs) :
    stepHorizontal d r = ⟨r.ex, r.ey + d.dyabs, r.px + d.sdx, r.py⟩ := if_neg (not_le.2 h)

/-- What one vertical iteration does, both ways of its test. -/
theorem stepVertical_of_le {d : Deltas} {r : Raster} (h : (d.dyabs : Int) ≤ r.ex + d.dxabs) :
    stepVertical d r = ⟨r.ex + d.dxabs - d.dyabs, r.ey, r.px + d.sdx, r.py + d.sdy⟩ := if_pos h

theorem stepVertical_of_lt {d : Deltas} {r : Raster} (h : r.ex + d.dxabs < d.dyabs) :
    stepVertical d r = ⟨r.ex + d.dxabs, r.ey, r.px, r.py + d.sdy⟩ := if_neg (not_le.2 h)

theorem stepHorizontal_atH (x0 y0 : Nat) {d : Deltas} (hm : d.dyabs ≤ d.dxabs) (hM : 0 < d.dxabs) (k : Nat) :
    stepHorizontal d (rasterAtH x0 y0 d k) = rasterAtH x0 y0 d (k + 1) := by
  have h := minorOffset_succ hm hM k
  split_ifs at h with hc
  · rw [stepHorizontal_of_le (by simp only [rasterAtH]; omega)]
    simp only [rasterAtH, h.1, Raster.mk.injEq, true_and]
    refine ⟨by omega, by push_cast; ring, by push_cast; ring⟩
  · rw [stepHorizontal_of_lt (by simp only [rasterAtH]; omega)]
    simp only [rasterAtH, h.1, h.2, Raster.mk.injEq, true_and, and_true]
    refine ⟨by push_cast; ring, by push_cast; ring⟩

theorem stepVertical_atV (x0 y0 : Nat) {d : Deltas} (hm : d.dxabs ≤ d.dyabs) (hM : 0 < d.dyabs) (k : Nat) :
    stepVertical d (rasterAtV x0 y0 d k) = rasterAtV x0 y0 d (k + 1) := by
  have h := minorOffset_succ hm hM k
  split_ifs at h with hc
  · rw [stepVertical_of_le (by simp only [rasterAtV]; omega)]
    simp only [rasterAtV, h.1, Raster.mk.injEq, true_and]
    refine ⟨by omega, by push_cast; ring, by push_cast; ring⟩
  · rw [stepVertical_of_lt (by simp only [rasterAtV]; omega)]
    simp only [rasterAtV, h.1, h.2, Raster.mk.injEq, true_and]
    refine ⟨by push_cast; ring, by push_cast; ring⟩

/-- The offset never exceeds the minor delta, and reaches it at the last step. -/
theorem minorOffset_le {major minor k : Nat} (hk : k ≤ major) : minorOffset major minor k ≤ minor := by
  unfold minorOffset
  rcases Nat.eq_zero_or_pos major with h | h
  · simp [h]
  · rw [Nat.div_le_iff_le_mul_add_pred h]
    have h1 : k * minor ≤ major * minor := Nat.mul_le_mul_right _ hk
    omega

theorem minorOffset_last {major minor : Nat} (h : 0 < major) : minorOffset major minor major = minor := by
  unfold minorOffset
  rw [Nat.add_comm, Nat.mul_add_div h, Nat.div_eq_of_lt (Nat.div_lt_self h (by decide)), Nat.add_zero]

end Sys2Proof.Machine
end

