-- ==== Sys2Proof/Tests/Slice0.lean ====
section
/-! SUPPORT. The model's own tests, expected results from 30_encoding.md R73 and 95_test_vectors.md (vector names V-…), the
ill-formed terms `Instr.wf` refuses, and for each obligation with hypotheses a state and operands that meet them. -/

namespace Sys2Proof.Tests

open Sys2Proof.Machine

/-! ## Helper states -/

/-- The state after one word issued in `s`; `s` itself where the machine stops. -/
def after (w : Nat) (s : State) : State :=
  match step (s.withFetchWord 64 w) with
  | .next t => t
  | _ => s

/-- Cell (5, 7) holds 12, everything else as after reset (V-P1 without its response). -/
def plotted : State := { State.reset with fb := [(2245, 12#8)] }

/-- The first cell holds 7. -/
def dot : State := { State.reset with fb := [(0, 7#8)] }

/-- The last cell holds 15. -/
def corner : State := { State.reset with fb := [(63999, 15#8)] }

/-- Halted by a bad x, no CONVERT yet (V-P4 without its response). -/
def halted : State := { plotted with status := ⟨true, false, .cvX⟩ }

/-- A CONVERT has completed. -/
def converted : State := { plotted with rgb := conv plotted.fb, status := ⟨false, true, .none⟩ }

/-- A CONVERT has completed, and a later command halted the block. -/
def haltedConverted : State := { converted with status := ⟨true, true, .rgbRange⟩ }

/-- A cell above 15, which no run reaches: CONVERT's CV_INDEX. -/
def overfull : State := { State.reset with fb := [(63999, 16#8)] }

/-! ## Decoding: words of 95_test_vectors.md -/

theorem test_decode_plot : decodeWord 0x000003C00018F3F1#64 = .ok (.plot 319 199 15) := by decide
theorem test_decode_plot_maxima : decodeWord 0x00003FC0001FFFF1#64 = .ok (.plot 511 255 255) := by decide
theorem test_decode_read_pixel : decodeWord 0x000000000018F3F2#64 = .ok (.readPixel 319 199) := by decide
theorem test_decode_draw_line : decodeWord 0x000001C140406073#64 = .ok (.drawLine 7 3 2 5 7) := by decide
theorem test_decode_draw_line_full : decodeWord 0x000003F1E7E00003#64 = .ok (.drawLine 0 0 319 199 15) := by decide
theorem test_decode_convert : decodeWord 0x0000000000000004#64 = .ok .convert := by decide
theorem test_decode_read_rgb : decodeWord 0x0000000000177105#64 = .ok (.readRgb 96016) := by decide
theorem test_decode_read_rgb_max : decodeWord 0x00000000003FFFF5#64 = .ok (.readRgb 262143) := by decide
theorem test_decode_read_status : decodeWord 0x0000000000000006#64 = .ok .readStatus := by decide

/-- V-I1 to V-I3: no row has these opcodes. -/
theorem test_illegal_opcodes :
    decodeWord 0x0#64 = .error .illegalOpcode ∧ decodeWord 0x7#64 = .error .illegalOpcode ∧
      decodeWord 0xF#64 = .error .illegalOpcode ∧ decodeWord 0xFFFFFFFFFFFFFFFF#64 = .error .illegalOpcode := by decide

/-- V-P8, V-P9, V-R3, V-L25, V-C2, V-G4, V-S4: one must-be-zero bit set in each format. -/
theorem test_must_be_zero_bits :
    decodeWord 0x0000004000202011#64 = .error .mustBeZero ∧ decodeWord 0x8000004000002011#64 = .error .mustBeZero ∧
      decodeWord 0x0000004000000002#64 = .error .mustBeZero ∧ decodeWord 0x0000404140A00003#64 = .error .mustBeZero ∧
      decodeWord 0x14#64 = .error .mustBeZero ∧ decodeWord 0x0000000000400005#64 = .error .mustBeZero ∧
      decodeWord 0x16#64 = .error .mustBeZero := by decide

/-- R45: PLOT 5, 7, 12 (R73) as bytes, bits 7:0 first; seven bytes are no word. -/
theorem test_decode_bytes :
    decodeBytes [0x51#8, 0xE0#8, 0x00#8, 0x00#8, 0x00#8, 0x03#8, 0x00#8, 0x00#8, 0xAB#8] =
        .ok (.plot 5 7 12, [0xAB#8]) ∧
      decodeBytes [0x06#8, 0x00#8, 0x00#8, 0x00#8, 0x00#8, 0x00#8, 0x00#8] = .error .truncated := by decide

theorem test_table_word : decodeTableWord 64 0x0000029927EC8003 = some (.drawLine 0 100 319 100 10) := by decide

/-- R71: comment, hexadecimal, blanks. -/
theorem test_assemble : assembleLine "PLOT 0x5, 7, 12 ; corner" = some [0x000003000000E051#64] := by decide +kernel

/-- R72: HLINE and READ_RGB_PIXEL (offsets of V-G8's pixel, L1.1 steps 4 to 6). -/
theorem test_assemble_pseudo :
    assembleLine "HLINE 100, 0, 319, 10" = some [0x0000029927EC8003#64] ∧
      assembleLine "READ_RGB_PIXEL 5, 100" =
        some [0x00000000001770F5#64, 0x0000000000177105#64, 0x0000000000177115#64] := by decide +kernel

/-! ## Well-formedness: an ill-formed term for each check -/

theorem test_wf_accepts_field_maxima :
    (Instr.plot 511 255 255).wf = true ∧ (Instr.readPixel 511 255).wf = true ∧
      (Instr.drawLine 511 255 511 255 255).wf = true ∧ (Instr.readRgb 262143).wf = true := by decide
theorem test_wf_refuses_plot :
    (Instr.plot 512 0 0).wf = false ∧ (Instr.plot 0 256 0).wf = false ∧ (Instr.plot 0 0 256).wf = false := by decide
theorem test_wf_refuses_read_pixel :
    (Instr.readPixel 512 0).wf = false ∧ (Instr.readPixel 0 256).wf = false := by decide
theorem test_wf_refuses_draw_line :
    (Instr.drawLine 512 0 0 0 0).wf = false ∧ (Instr.drawLine 0 256 0 0 0).wf = false ∧
      (Instr.drawLine 0 0 512 0 0).wf = false ∧ (Instr.drawLine 0 0 0 256 0).wf = false ∧
      (Instr.drawLine 0 0 0 0 256).wf = false := by decide
theorem test_wf_refuses_read_rgb : (Instr.readRgb 262144).wf = false := by decide
theorem test_assembler_refuses_unfit : assembleInstr (.plot 512 0 0) = none := by decide

/-! ## One step of each command -/

/-- V-P1. -/
theorem test_plot_writes :
    (after 0x000003000000E051 State.reset).fb = [(2245, 12#8)] ∧
      (after 0x000003000000E051 State.reset).responses = [0x00000000#32] := by decide

/-- V-P7: every operand is bad, CV_X wins. -/
theorem test_plot_reports_x_first :
    statusWord (after 0x00003FC0001FFFF1 State.reset).status = 0x0021#16 ∧
      (after 0x00003FC0001FFFF1 State.reset).responses = [0x00000002#32] := by decide

/-- V-R2. -/
theorem test_read_pixel : (after 0x000000000000E052 plotted).responses = [0x00000C00#32] := by decide

/-- V-R5. -/
theorem test_read_pixel_checks_y : statusWord (after 0x0000000000190002 State.reset).status = 0x0031#16 := by decide

/-- V-L3: (2,1), (1,0), (0,0), the reversed line, its half-way tie away from the start. -/
theorem test_draw_line_reversed :
    (after 0x000001C000002023 State.reset).fb = [(0, 7#8), (1, 7#8), (322, 7#8)] := by decide

/-- V-L4: the vertical branch with `>=`: (0,0), (1,1), (1,2). -/
theorem test_draw_line_vertical :
    (after 0x000001C080200003 State.reset).fb = [(0, 7#8), (321, 7#8), (641, 7#8)] := by decide

/-- V-C1: STATUS and the response; the bytes are `test_convert_bytes`. -/
theorem test_convert :
    statusWord (after 0x4 State.reset).status = 0x0002#16 ∧ (after 0x4 State.reset).responses = [0x00000000#32] := by decide

/-- The triple of the cell (5, 7) holding 12, lightRed (255, 0, 0) in the table of R25, at the offset of R42. -/
theorem test_convert_bytes :
    [6735, 6736, 6737].map (fun i => memRead .rgb i (conv plotted.fb)) = [some 0xFF#8, some 0x00#8, some 0x00#8] := by
  simp only [List.map, memRead_conv]
  decide

/-- V-G2: RGB_RANGE before RGB_INVALID. -/
theorem test_read_rgb_range_first : (after 0x00000000002EE005 State.reset).responses = [0x00000006#32] := by decide

/-- V-G1. -/
theorem test_read_rgb_before_convert : statusWord (after 0x5 State.reset).status = 0x0071#16 := by decide

/-- V-S3: READ_STATUS while halted. -/
theorem test_read_status_halted : (after 0x6 halted).responses = [0x00002100#32] := by decide

/-- V-S5: OP 6 with bit 4 set is no READ_STATUS, so a halted block answers HALTED. -/
theorem test_halted_answers : (after 0x16 halted).responses = [0x00000008#32] := by decide

/-- V-I1. -/
theorem test_illegal_halts : statusWord (after 0x0 State.reset).status = 0x0011#16 := by decide

/-! ## The helper states meet the invariant -/

theorem witness_inv_plotted : plotted.Inv :=
  ⟨⟨⟨by decide, by decide⟩, by decide⟩, ⟨nil_wf _, fun h => absurd h (by decide), fun _ => rfl⟩, ⟨by decide, by decide⟩,
    by decide⟩

theorem witness_inv_dot : dot.Inv :=
  ⟨⟨⟨by decide, by decide⟩, by decide⟩, ⟨nil_wf _, fun h => absurd h (by decide), fun _ => rfl⟩, ⟨by decide, by decide⟩,
    by decide⟩

theorem witness_inv_corner : corner.Inv :=
  ⟨⟨⟨by decide, by decide⟩, by decide⟩, ⟨nil_wf _, fun h => absurd h (by decide), fun _ => rfl⟩, ⟨by decide, by decide⟩,
    by decide⟩

theorem witness_inv_halted : halted.Inv :=
  ⟨⟨⟨by decide, by decide⟩, by decide⟩, ⟨nil_wf _, fun h => absurd h (by decide), fun _ => rfl⟩, ⟨by decide, by decide⟩,
    by decide⟩

theorem witness_inv_converted : converted.Inv :=
  ⟨⟨⟨by decide, by decide⟩, by decide⟩, ⟨conv_wf _, fun _ => conv_full _, fun h => absurd h (by decide)⟩,
    ⟨by decide, by decide⟩, by decide⟩

theorem witness_inv_halted_converted : haltedConverted.Inv :=
  ⟨⟨⟨by decide, by decide⟩, by decide⟩, ⟨conv_wf _, fun _ => conv_full _, fun h => absurd h (by decide)⟩,
    ⟨by decide, by decide⟩, by decide⟩

/-- The state a CONVERT leaves. -/
def convertedFrom (s : State) : State :=
  respond .none 0#16 (setStatus (validStatus s.status) (setRgb (conv s.fb) s))

theorem exec_convert_of_cells {s : State} (h : s.status.halted = false) (hc : checkIndices s.fb = none) :
    exec .convert s = .next (convertedFrom s) := by
  simp only [exec, execConvert]
  exact serve_run (check := fun t => checkIndices t.fb) h hc

theorem exec_line_of_cells {x0 y0 x1 y1 c : Nat} {s : State} {m : Memory} (h : s.status.halted = false)
    (hc : checkLine x0 y0 x1 y1 c = none) (hm : fbPutAll (linePixels x0 y0 x1 y1) (BitVec.ofNat 8 c) s.fb = m) :
    exec (.drawLine x0 y0 x1 y1 c) s = .next (respond .none 0#16 (setFb m s)) := by
  simp only [exec, execDrawLine]
  rw [serve_run h hc, hm]

/-! ## Witnesses: for each obligation with hypotheses, a state and operands that meet them -/

theorem witness_DecodeInvertsEncode : (Instr.drawLine 511 255 511 255 255).wf = true ∧ (Instr.plot 0 0 0).wf = true := by
  decide

theorem witness_EncodeInvertsDecode : decodeWord 0x00003FFFFFFFFFF3#64 = .ok (.drawLine 511 255 511 255 255) := by decide

theorem witness_AtMostOneRowMatches :
    (∃ r ∈ opcodeRows, 0x00003FFFFFFFFFF3#64 &&& r.mask = r.pattern) ∧
      (∀ r ∈ opcodeRows, 0x7#64 &&& r.mask ≠ r.pattern) := by decide

theorem witness_IllegalWordsAreTheReservedOnes :
    decodeWord 0x0#64 = .error .illegalOpcode ∧ plotted.status.halted = false := by decide

theorem witness_WordsTravelLittleEndian : (7 < 8) ∧ (3 < 4) := by decide

theorem witness_PseudoInstructionsExpand : 319 ≤ 319 ∧ 199 ≤ 199 := by decide

theorem witness_CellOffsetsHaveNoGaps : fbOff 319 199 = 63999 ∧ fbOff 0 0 = 0 ∧ fbOff 0 1 = 320 := by decide

theorem witness_PlotWordFollowsItsRule :
    (0x000003C00018F3F1#64).extractLsb' 0 4 = 1#4 ∧ Memory.wf .fb corner.fb ∧ 63999 < Config.ncells :=
  ⟨by decide, witness_inv_corner.1.1, by decide⟩

/-- A word; a reset; a PLOT of the cell (5, 7), next to the cell (6, 7) at offset 2246, which stays 0. -/
theorem witness_ReadPixelWordFollowsItsRule :
    (0x000000000018F3F2#64).extractLsb' 0 4 = 2#4 ∧ corner.Inv ∧ hostMove .reset halted = .next State.reset ∧
      hostMove (.command 0x000003000000E051#64) State.reset = .next (respond .none 0#16 plotted) ∧
      leavesCell 2246 (.command 0x000003000000E051#64) ∧ fbByte 2246 State.reset.fb = 0#8 := by
  refine ⟨by decide, witness_inv_corner, by rfl, by rfl, fun w hw => ?_, by decide⟩
  have hd : decodeWord 0x000003000000E051#64 = .ok (.plot 5 7 12) := by decide
  obtain rfl := HostInput.command.inj hw
  refine ⟨fun x y c h => ?_, fun x0 y0 x1 y1 c h => ?_⟩
  · rw [hd] at h
    cases h
    decide
  · rw [hd] at h
    cases h

/-- A word, a horizontal and a vertical line, and their deltas. -/
theorem witness_DrawLineWordFollowsItsRule :
    (0x000003F1E7E00003#64).extractLsb' 0 4 = 3#4 ∧
      ((319 : Int) = ((319 : Nat) : Int) - (0 : Nat) ∧ ((319 : Nat) : Int) = |(319 : Int)| ∧
        ((199 : Nat) : Int) = |(199 : Int)| ∧ 199 ≤ 319 ∧ 318 < 319) ∧
      (1 < 2 ∧ ((1 : Nat) : Int) = |(-1 : Int)| ∧ ((2 : Nat) : Int) = |(2 : Int)|) := by decide

/-- Halted; not halted with another word; a cell above 15; every cell at most 15. -/
theorem witness_ConvertWordFollowsItsRule :
    (0x14#64).extractLsb' 0 4 = 4#4 ∧ halted.status.halted = true ∧ plotted.status.halted = false ∧ 0x14#64 ≠ 0x4#64 ∧
      (∃ o, o < Config.ncells ∧ 15 < (fbByte o overfull.fb).toNat) ∧
      (∀ o, o < Config.ncells → (fbByte o corner.fb).toNat ≤ 15) ∧
      (fbByte 63999 corner.fb).toNat = (15 : Fin 16).val :=
  ⟨by decide, by decide, by decide, by decide, ⟨63999, by decide, by decide⟩,
    checkIndices_eq_none.1 (by decide), by decide⟩

theorem witness_ReadRgbWordFollowsItsRule :
    (0x00000000002EDFF5#64).extractLsb' 0 4 = 5#4 ∧
      memRead .rgb ((0x00000000002EDFF5#64).extractLsb' 4 18).toNat converted.rgb = some 0x00#8 ∧
      converted.Inv ∧ converted.status.rgbValid = true ∧ 191999 < Config.nrgb :=
  ⟨by decide, (memRead_conv plotted.fb 191999).trans (by decide), witness_inv_converted, by decide, by decide⟩

theorem witness_ReadStatusWordFollowsItsRule :
    (0x6#64).extractLsb' 0 4 = 6#4 ∧ (0x16#64).extractLsb' 0 4 = 6#4 := by decide

/-- A word that completes, one that a halted block answers, one that faults. -/
theorem witness_ReportedCauseFollowsCheckOrder :
    commandMove 0x000003000000E051#64 State.reset = .next (respond .none 0#16 plotted) ∧
      commandMove 0x0#64 halted = .next (respond .halted 0#16 halted) ∧
      commandMove 0x00003FC0001FFFF1#64 plotted = .next (raiseFault .cvX plotted) := by
  refine ⟨by rfl, by rfl, by rfl⟩

theorem witness_PlotCompletes :
    plotted.status.halted = false ∧ 319 < Config.width ∧ 199 < Config.height ∧ 15 ≤ 15 := by decide

theorem witness_ReadPixelCompletes : corner.status.halted = false ∧ 319 < Config.width ∧ 199 < Config.height := by decide

/-- The legal maxima, and a major step and a pixel of the line at its end. -/
theorem witness_DrawLineCompletes :
    plotted.status.halted = false ∧ 319 < Config.width ∧ 199 < Config.height ∧ 0 < Config.width ∧ 0 < Config.height ∧
      15 ≤ 15 ∧ 319 ≤ majorLength 0 0 319 199 ∧ closedPixel 0 0 319 199 319 = (((319 : Nat) : Int), ((199 : Nat) : Int)) := by
  decide

theorem witness_ConvertCompletes :
    corner.status.halted = false ∧ (∀ o, o < Config.ncells → (fbByte o corner.fb).toNat ≤ 15) ∧ Config.nrgb ≤ 192000 :=
  ⟨by decide, checkIndices_eq_none.1 (by decide), by decide⟩

theorem witness_ReadRgbCompletes :
    converted.Inv ∧ converted.status.halted = false ∧ converted.status.rgbValid = true ∧ 191999 < Config.nrgb :=
  ⟨witness_inv_converted, by decide, by decide, by decide⟩

/-- A legal word, an illegal one, and a reset at the head of the channel. -/
theorem witness_StepRunsTheDecodedCommand :
    (plotted.withFetchWord 64 0x6).inputs = .command 0x6#64 :: [] ∧ decodeWord 0x6#64 = .ok .readStatus ∧
      (plotted.withFetchWord 64 0x7).inputs = .command 0x7#64 :: [] ∧ decodeWord 0x7#64 = .error .illegalOpcode ∧
      State.inputs { plotted with inputs := [.reset] } = .reset :: [] := by decide

/-- A read that completes, and an illegal word. -/
theorem witness_EveryWordReturnsOneResponse :
    plotted.Inv ∧ commandMove 0x000000000000E052#64 plotted = .next (respond .none 12#16 plotted) ∧
      decodeWord 0x000000000000E052#64 = .ok (.readPixel 5 7) ∧ (respWord .none 12#16).extractLsb' 0 4 = 0#4 ∧
      decodeWord 0x0#64 = .error .illegalOpcode :=
  ⟨witness_inv_plotted, by rfl, by decide, by decide, by decide⟩

theorem witness_ResetReachesTheResetState :
    hostMove .reset haltedConverted = .next { haltedConverted with fb := [], rgb := [], status := .reset } := by rfl

/-- Halted and running, at the last offset. -/
theorem witness_UploadTakesAllOfRgb :
    haltedConverted.Inv ∧ haltedConverted.status.rgbValid = true ∧ converted.Inv ∧ converted.status.rgbValid = true ∧
      converted.status.halted = false ∧ 191999 < Config.nrgb :=
  ⟨witness_inv_halted_converted, by decide, witness_inv_converted, by decide, by decide, by decide⟩

theorem witness_UploadBeforeConvertStops : plotted.status.rgbValid = false := by decide

theorem witness_UploadAfterConvertShowsTheFrame :
    State.Inv { plotted with inputs := [.command 0x0000000000000004#64, .upload] } ∧ plotted.status.halted = false ∧
      319 < Config.width ∧ 199 < Config.height ∧ 2 < 3 :=
  ⟨witness_inv_plotted, by decide, by decide, by decide, by decide⟩

theorem witness_PresentTickIssuesConvertThenUpload :
    State.inputs { plotted with inputs := [.presentTick true] } = .presentTick true :: [] ∧
      State.inputs { plotted with inputs := [.presentTick false] } = .presentTick false :: [] := by decide

theorem witness_IdleStepChangesNothing : plotted.inputs = [] := by decide

theorem witness_StepNeverStopsUnderDuty :
    State.Inv { converted with inputs := [.upload] } ∧ hostDuty { converted with inputs := [.upload] } ∧
      plotted.Inv ∧ hostDuty plotted :=
  ⟨witness_inv_converted, fun _ => rfl, witness_inv_plotted, by decide⟩

theorem witness_FaultsArePrecise :
    plotted.status.halted = false ∧ commandMove 0x0000004000001401#64 plotted = .next (raiseFault .cvX plotted) ∧
      (raiseFault .cvX plotted).status.halted = true :=
  ⟨by decide, by rfl, by decide⟩

theorem witness_HaltedAnswersEveryWord :
    haltedConverted.status.halted = true ∧ haltedConverted.status.rgbValid = true ∧
      0x16#64 ≠ 0x0000000000000006#64 := ⟨rfl, rfl, by decide⟩

/-- A halted block at a word and at a reset; a halted block, and one with RGB_VALID = 1, at a command word. -/
theorem witness_OnlyResetLeavesTheHalt :
    halted.status.halted = true ∧ hostMove (.command 0x4#64) halted = .next (respond .halted 0#16 halted) ∧
      HostInput.command 0x4#64 ≠ .reset ∧ hostMove .reset halted = .next State.reset ∧
      commandMove 0x4#64 halted = .next (respond .halted 0#16 halted) ∧
      converted.status.rgbValid = true ∧
      commandMove 0x7#64 converted = .next (raiseFault .illegalCommand converted) :=
  ⟨rfl, rfl, by decide, rfl, rfl, rfl, rfl⟩

/-- FIRST_CAUSE is CV_INDEX in a state of the invariant, and a word leaves it. -/
theorem witness_CvIndexIsNeverRaised :
    State.Inv { plotted with status := ⟨true, false, .cvIndex⟩ } ∧
      commandMove 0x0#64 { plotted with status := ⟨true, false, .cvIndex⟩ } =
        .next (respond .halted 0#16 { plotted with status := ⟨true, false, .cvIndex⟩ }) :=
  ⟨⟨⟨⟨by decide, by decide⟩, by decide⟩, ⟨nil_wf _, fun h => absurd h (by decide), fun _ => rfl⟩, ⟨by decide, by decide⟩,
    by decide⟩, by rfl⟩

theorem witness_StatusRegisterHoldsItsFields : halted.Inv ∧ plotted.Inv := ⟨witness_inv_halted, witness_inv_plotted⟩

theorem witness_StepKeepsInv :
    State.Inv { plotted with inputs := [.command 0x4#64] } ∧
      step { plotted with inputs := [.command 0x4#64] } = .next (convertedFrom plotted) :=
  ⟨witness_inv_plotted, exec_convert_of_cells (s := plotted) (by decide) (by decide)⟩

/-- FB changed by a PLOT; a word that is neither READ_PIXEL nor CONVERT. -/
theorem witness_FbIsReachedOnlyAsRuled :
    hostMove (.command 0x000003000000E051#64) State.reset = .next (respond .none 0#16 plotted) ∧
      (respond .none 0#16 plotted).fb ≠ State.reset.fb ∧ decodeWord 0x6#64 = .ok .readStatus ∧
      commandMove 0x6#64 plotted = .next (respond .none 0#16 plotted) :=
  ⟨by rfl, by decide, by decide, by rfl⟩

/-- RGB changed by a CONVERT; a word that is no READ_RGB. -/
theorem witness_RgbIsReachedOnlyAsRuled :
    hostMove (.command 0x4#64) plotted = .next (convertedFrom plotted) ∧
      (convertedFrom plotted).rgb ≠ plotted.rgb ∧ decodeWord 0x4#64 = .ok .convert := by
  refine ⟨exec_convert_of_cells (s := plotted) (by decide) (by decide), fun h => ?_, by decide⟩
  have h1 := memRead_conv plotted.fb 0
  rw [show conv plotted.fb = [] from h] at h1
  exact absurd h1 (by decide)

/-- STATUS changed by a fault. -/
theorem witness_StatusChangesOnlyAsRuled :
    hostMove (.command 0x0#64) plotted = .next (raiseFault .illegalCommand plotted) ∧
      (raiseFault .illegalCommand plotted).status ≠ plotted.status :=
  ⟨by rfl, by decide⟩

/-- A write and a read that complete. -/
theorem witness_WritesAreIdempotentAndReadsPure :
    plotted.Inv ∧ exec .convert plotted = .next (convertedFrom plotted) ∧
      exec (.readPixel 5 7) plotted = .next (respond .none 12#16 plotted) ∧
      (respond .none 12#16 plotted).responses = 0x00000C00#32 :: plotted.responses ∧
      (0x00000C00#32).extractLsb' 0 4 = 0#4 :=
  ⟨witness_inv_plotted, exec_convert_of_cells (by decide) (by decide), by rfl, by decide, by decide⟩

/-- A PLOT, a one-cell line and a CONVERT that complete; the operands at their ends. -/
theorem witness_ReadsSeeTheLastWrite :
    exec (.plot 5 7 12) State.reset = .next (respond .none 0#16 plotted) ∧
      (respond .none 0#16 plotted).status.halted = false ∧
      exec (.drawLine 5 7 5 7 12) State.reset = .next (respond .none 0#16 plotted) ∧
      (((5 : Nat) : Int), ((7 : Nat) : Int)) ∈ linePixels 5 7 5 7 ∧
      exec .convert plotted = .next (convertedFrom plotted) ∧ (convertedFrom plotted).status.halted = false ∧
      319 < Config.width ∧ 199 < Config.height ∧ 2 < 3 :=
  ⟨by rfl, by decide, by rfl, by decide, exec_convert_of_cells (by decide) (by decide), by decide, by decide, by decide,
    by decide⟩

theorem witness_LineStaysInItsBox :
    (((319 : Nat) : Int), ((199 : Nat) : Int)) ∈ linePixels 319 199 316 199 ∧ 319 < Config.width ∧ 316 < Config.width ∧
      199 < Config.height := by decide

/-- Deltas of both branches: (0,0)-(5,2) and (2,1)-(1,3). -/
theorem witness_LineHasTheClosedForm :
    ((5 : Int) = ((5 : Nat) : Int) - (0 : Nat) ∧ 5 = (5 : Int).natAbs ∧ 2 = (2 : Int).natAbs) ∧
      ((-1 : Int) = ((1 : Nat) : Int) - (2 : Nat) ∧ 1 = (-1 : Int).natAbs ∧ (2 : Int) = ((3 : Nat) : Int) - (1 : Nat)) := by
  decide

theorem witness_StraightLinesAreExact : (1 : Nat) ≠ 5 := by decide

/-- A line drawn, then another that shares cells with it, both completing. -/
theorem witness_LaterLineWins :
    dot.Inv ∧ exec (.drawLine 0 0 2 1 7) dot = .next (respond .none 0#16 (setFb [(0, 7#8), (321, 7#8), (322, 7#8)] dot)) ∧
      exec (.drawLine 2 1 0 0 9) (respond .none 0#16 (setFb [(0, 7#8), (321, 7#8), (322, 7#8)] dot)) =
        .next (respond .none 0#16 (setFb [(0, 9#8), (1, 9#8), (321, 7#8), (322, 9#8)]
          (respond .none 0#16 (setFb [(0, 7#8), (321, 7#8), (322, 7#8)] dot)))) ∧
      dot.status.halted = false ∧
      (((2 : Nat) : Int), ((1 : Nat) : Int)) ∈ linePixels 0 0 2 1 ∧
      (((2 : Nat) : Int), ((1 : Nat) : Int)) ∈ linePixels 2 1 0 0 :=
  ⟨witness_inv_dot, exec_line_of_cells rfl (by decide) (by decide), exec_line_of_cells rfl (by decide) (by decide), rfl,
    by decide, by decide⟩

theorem witness_DiagonalLinesAreExact :
    3 = (((0 : Nat) : Int) - (3 : Nat)).natAbs ∧ 3 = (((3 : Nat) : Int) - (0 : Nat)).natAbs ∧ 0 < 3 := by decide

/-- M = 2, m = 1, the exact half at k = 1. -/
theorem witness_LineRoundsToNearest :
    2 = majorLength 0 0 2 1 ∧ 1 = minorLength 0 0 2 1 ∧ 0 < 2 ∧ 1 ≤ 2 ∧ 2 * (1 * 1) = 2 * 2 * 0 + 2 := by decide

/-- The longest horizontal branch, and a vertical branch. -/
theorem witness_AccumulatorStaysBelowMajor :
    319 = (((319 : Nat) : Int) - (0 : Nat)).natAbs ∧ 199 = (((199 : Nat) : Int) - (0 : Nat)).natAbs ∧ 199 ≤ 319 ∧ 1 ≤ 319 ∧
      319 < Config.width ∧ 199 < Config.height ∧ 1 = (((1 : Nat) : Int) - (0 : Nat)).natAbs ∧
      2 = (((2 : Nat) : Int) - (0 : Nat)).natAbs ∧ 1 < 2 := by decide

theorem witness_ConvertEqualsItsWrites :
    corner.Inv ∧ exec .convert corner = .next (convertedFrom corner) ∧ (convertedFrom corner).status.halted = false :=
  ⟨witness_inv_corner, exec_convert_of_cells (by decide) (by decide), by decide⟩

/-- CONVERT, then one step in which the host resizes, then CONVERT. -/
theorem witness_ConvertIsPure :
    exec .convert plotted = .next (convertedFrom plotted) ∧ (∀ h ∈ [HostInput.resize 1 2], leavesFb h) ∧
      runSteps 1 { convertedFrom plotted with inputs := [.resize 1 2] } = .next (convertedFrom plotted) ∧
      exec .convert (convertedFrom plotted) = .next (convertedFrom (convertedFrom plotted)) ∧
      (convertedFrom (convertedFrom plotted)).status.halted = false :=
  ⟨exec_convert_of_cells (by decide) (by decide),
    fun h hh => by rw [List.mem_singleton.1 hh]; exact ⟨by simp, by simp⟩, rfl,
    exec_convert_of_cells (s := convertedFrom plotted) rfl (by decide), rfl⟩

/-- An FB of zeros is filled with index 0. -/
theorem witness_UniformFillConverts :
    State.reset.status.halted = false ∧ 0 ≤ 15 ∧
      ∀ x y, x < Config.width → y < Config.height → fbRead x y State.reset = BitVec.ofNat 8 0 :=
  ⟨rfl, by decide, fun _ _ _ _ => rfl⟩

theorem witness_IndicesAreRecoverable :
    exec .convert plotted = .next (convertedFrom plotted) ∧ (convertedFrom plotted).status.halted = false ∧
      5 < Config.width ∧ 7 < Config.height ∧
      ∀ j, j < 3 → rgbRead (rgbOff 5 7 + j) (convertedFrom plotted) = rgbRead (rgbOff 5 7 + j) (convertedFrom plotted) :=
  ⟨exec_convert_of_cells (by decide) (by decide), by decide, by decide, by decide, fun _ _ => rfl⟩

end Sys2Proof.Tests
end

section
/-! The step always answers: no move of the host stops the machine while the invariant and the host's upload duty hold
(R16, R159). -/

namespace Sys2Proof.Machine

/-- `serve` adds no stop of its own: it answers a next state whenever what it runs after the checks does. -/
theorem serve_answers {check : State → Option Cause} {run : State → Result} {s : State}
    (hrun : check s = none → ∃ t, run s = .next t) : ∃ t, serve check run s = .next t := by
  cases hh : s.status.halted with
  | true => exact ⟨_, serve_halted hh⟩
  | false =>
    cases hc : check s with
    | some c => exact ⟨_, serve_fault hh hc⟩
    | none => rw [serve_run hh hc]; exact hrun hc

/-- `serve` answers a next state when what it runs always does: so run PLOT, READ_PIXEL, DRAW_LINE, CONVERT and an illegal word. -/
theorem serve_next_answers (check : State → Option Cause) (effect : State → State) (s : State) :
    ∃ t, serve check (fun t => .next (effect t)) s = .next t :=
  serve_answers fun _ => ⟨effect s, rfl⟩

/-- READ_RGB answers when RGB is full wherever RGB_VALID is 1: past its two checks the byte it reads has a value (R23, R112). -/
theorem execReadRgb_answers {s : State} (hfull : s.status.rgbValid = true → rgbFull s.rgb) (off : Nat) :
    ∃ t, execReadRgb off s = .next t := by
  refine serve_answers fun hc => ?_
  obtain ⟨hoff, hvalid⟩ := Option.or_eq_none_iff.1 hc
  have hbyte : (rgbRead off s).isSome = true := hfull (checkValid_eq_none.1 hvalid) off (checkOff_eq_none.1 hoff)
  obtain ⟨v, hv⟩ := Option.isSome_iff_exists.1 hbyte
  simp [hv]

/-- Every command answers a next state; READ_RGB is the only one that needs RGB's bytes to have values (R23). -/
theorem exec_answers {s : State} (hfull : s.status.rgbValid = true → rgbFull s.rgb) (i : Instr) :
    ∃ t, exec i s = .next t := by
  cases i with
  | plot x y c =>
    unfold exec execPlot
    exact serve_next_answers _ _ s
  | readPixel x y =>
    unfold exec execReadPixel
    exact serve_next_answers _ _ s
  | drawLine x0 y0 x1 y1 c =>
    unfold exec execDrawLine
    exact serve_next_answers _ _ s
  | convert =>
    unfold exec execConvert
    exact serve_next_answers _ _ s
  | readRgb off => exact execReadRgb_answers hfull off
  | readStatus => exact ⟨_, rfl⟩

/-- Every command word answers a next state: its command does, or the word is illegal and is answered as R70 says. -/
theorem commandMove_answers {s : State} (hfull : s.status.rgbValid = true → rgbFull s.rgb) (w : CmdWord) :
    ∃ t, commandMove w s = .next t := by
  unfold commandMove
  split
  · exact exec_answers hfull _
  · exact serve_next_answers _ _ s

/-- An upload answers a next state once a CONVERT has completed since reset (R157). -/
theorem uploadMove_of_valid {s : State} (h : s.status.rgbValid = true) : uploadMove s = .next (recordUpload s) := by
  simp [uploadMove, h]

/-- Every move of the host answers a next state, an upload under the host's duty (R159). -/
theorem hostMove_answers {s : State} {m : HostInput} (hfull : s.status.rgbValid = true → rgbFull s.rgb)
    (hduty : m = .upload → s.status.rgbValid = true) : ∃ t, hostMove m s = .next t := by
  cases m with
  | command w => exact commandMove_answers hfull w
  | reset => exact ⟨_, rfl⟩
  | upload => exact ⟨_, uploadMove_of_valid (hduty rfl)⟩
  | resize a b => exact ⟨_, rfl⟩
  | presentTick active => exact ⟨_, rfl⟩

/-- Settles O31: the two stops of the model are READ_RGB at a byte without a value, which the invariant rules out, and an
upload before the first CONVERT, which the host's duty rules out. -/
theorem stepNeverStopsUnderDuty : Obligations.StepNeverStopsUnderDuty := by
  intro s hinv hduty
  obtain ⟨-, ⟨-, hfull, -⟩, -, -⟩ := hinv
  unfold step nextMove
  split
  · exact ⟨s, rfl⟩
  · next m rest hm =>
    exact hostMove_answers (s := setInputs rest s) hfull fun hup => hduty (by simp [hm, hup])

end Sys2Proof.Machine
end

section
/-! The pixels of a line: both branches of R90's loop in closed form, and the endpoints' box every pixel lies in (R94, R95). -/

namespace Sys2Proof.Machine

/-- The horizontal branch in closed form (R95), the one-cell line included. -/
theorem lineRasters_of_le {x0 y0 x1 y1 : Nat} (h : (lineDeltas x0 y0 x1 y1).dyabs ≤ (lineDeltas x0 y0 x1 y1).dxabs) :
    lineRasters x0 y0 x1 y1 = (List.range ((lineDeltas x0 y0 x1 y1).dxabs + 1)).map
      (rasterAtH x0 y0 (lineDeltas x0 y0 x1 y1)) := by
  unfold lineRasters
  dsimp only
  generalize lineDeltas x0 y0 x1 y1 = d at h ⊢
  have hstart : rasterStart x0 y0 d = rasterAtH x0 y0 d 0 := by
    rcases Nat.eq_zero_or_pos d.dxabs with h0 | hpos
    · simp [rasterStart, rasterAtH, minorOffset_zero, h0]
    · exact rasterStart_eq_atH x0 y0 hpos
  rw [if_pos h, hstart, rasterRun_eq_map _ (rasterAtH x0 y0 d) _ 0
    (fun j _ hj => stepHorizontal_atH x0 y0 h (by omega) j), List.range_eq_range', List.range'_succ, List.map_cons]

/-- The vertical branch in closed form (R95). -/
theorem lineRasters_of_lt {x0 y0 x1 y1 : Nat} (h : (lineDeltas x0 y0 x1 y1).dxabs < (lineDeltas x0 y0 x1 y1).dyabs) :
    lineRasters x0 y0 x1 y1 = (List.range ((lineDeltas x0 y0 x1 y1).dyabs + 1)).map
      (rasterAtV x0 y0 (lineDeltas x0 y0 x1 y1)) := by
  unfold lineRasters
  dsimp only
  generalize lineDeltas x0 y0 x1 y1 = d at h ⊢
  rw [if_neg (not_le.2 h), rasterStart_eq_atV x0 y0 (by omega), rasterRun_eq_map _ (rasterAtV x0 y0 d) _ 0
    (fun j _ _ => stepVertical_atV x0 y0 h.le (by omega) j), List.range_eq_range', List.range'_succ, List.map_cons]

/-- The pixels of a line are R95's closed form, in write order. -/
theorem linePixels_eq_map_closedPixel (x0 y0 x1 y1 : Nat) :
    linePixels x0 y0 x1 y1 = (List.range (majorLength x0 y0 x1 y1 + 1)).map (closedPixel x0 y0 x1 y1) := by
  unfold linePixels
  rcases le_or_gt (lineDeltas x0 y0 x1 y1).dyabs (lineDeltas x0 y0 x1 y1).dxabs with h | h
  · rw [lineRasters_of_le h, List.map_map, majorLength, max_eq_left h]
    refine List.map_congr_left fun k _ => ?_
    simp [closedPixel, rasterAtH, majorLength, minorLength, h]
  · rw [lineRasters_of_lt h, List.map_map, majorLength, max_eq_right h.le]
    refine List.map_congr_left fun k _ => ?_
    simp [closedPixel, rasterAtV, majorLength, minorLength, h.le, not_le.2 h]

/-- Walking from `a` towards `b` by no more than their distance stays between them. -/
theorem walk_mem_uIcc (a b : Int) {n : Nat} (hn : n ≤ (b - a).natAbs) : a + (b - a).sign * n ∈ Set.uIcc a b := by
  rw [Set.mem_uIcc]
  rcases lt_trichotomy (b - a) 0 with h | h | h
  · rw [Int.sign_eq_neg_one_of_neg h]; omega
  · rw [h, Int.sign_zero]; omega
  · rw [Int.sign_eq_one_of_pos h]; omega

/-- The closed form stays in the endpoints' box (R94): the minor offset never exceeds the minor delta. -/
theorem closedPixel_mem_uIcc (x0 y0 x1 y1 : Nat) {k : Nat} (hk : k ≤ majorLength x0 y0 x1 y1) :
    (closedPixel x0 y0 x1 y1 k).1 ∈ Set.uIcc (x0 : Int) x1 ∧ (closedPixel x0 y0 x1 y1 k).2 ∈ Set.uIcc (y0 : Int) y1 := by
  have hoff := minorOffset_le (minor := minorLength x0 y0 x1 y1) hk
  unfold closedPixel
  generalize minorOffset (majorLength x0 y0 x1 y1) (minorLength x0 y0 x1 y1) k = off at hoff ⊢
  unfold majorLength at hk
  unfold minorLength at hoff
  rcases le_or_gt (lineDeltas x0 y0 x1 y1).dyabs (lineDeltas x0 y0 x1 y1).dxabs with h | h
  · rw [max_eq_left h] at hk
    rw [min_eq_right h] at hoff
    dsimp only
    rw [if_pos h]
    exact ⟨walk_mem_uIcc x0 x1 hk, walk_mem_uIcc y0 y1 hoff⟩
  · rw [max_eq_right h.le] at hk
    rw [min_eq_left h.le] at hoff
    dsimp only
    rw [if_neg (not_le.2 h)]
    exact ⟨walk_mem_uIcc x0 x1 hoff, walk_mem_uIcc y0 y1 hk⟩

/-- Every pixel of a line lies in the endpoints' box (R94). -/
theorem mem_uIcc_of_mem_linePixels {x0 y0 x1 y1 : Nat} {p : Int × Int} (hp : p ∈ linePixels x0 y0 x1 y1) :
    p.1 ∈ Set.uIcc (x0 : Int) x1 ∧ p.2 ∈ Set.uIcc (y0 : Int) y1 := by
  rw [linePixels_eq_map_closedPixel, List.mem_map] at hp
  obtain ⟨k, hk, rfl⟩ := hp
  exact closedPixel_mem_uIcc x0 y0 x1 y1 (Nat.le_of_lt_succ (List.mem_range.1 hk))

/-- Every pixel of a line between legal endpoints is a cell of FB (R94). -/
theorem fbOff_lt_of_mem_linePixels {x0 y0 x1 y1 : Nat} (hx0 : x0 < Config.width) (hy0 : y0 < Config.height)
    (hx1 : x1 < Config.width) (hy1 : y1 < Config.height) {p : Int × Int} (hp : p ∈ linePixels x0 y0 x1 y1) :
    fbOff p.1.toNat p.2.toNat < Config.ncells := by
  obtain ⟨hx, hy⟩ := mem_uIcc_of_mem_linePixels hp
  rw [Set.mem_uIcc] at hx hy
  exact fbOff_lt (by omega) (by omega)

end Sys2Proof.Machine
end

section
/-! The invariant, one part of the state at a time, then through each move of the host (R20, R21, R23, R26). -/

namespace Sys2Proof.Machine

/-! ## The parts of the invariant -/

/-- A legal colour as a byte is a palette index (R21). -/
theorem toNat_color_le {c : Nat} (hc : c ≤ Config.indexMax) : (BitVec.ofNat 8 c).toNat ≤ Config.indexMax := by
  rw [BitVec.toNat_ofNat]
  exact (Nat.mod_le _ _).trans hc

/-- Writing a legal colour to the pixels of a list that lie in FB keeps FB canonical and its cells palette indices (R20, R21). -/
theorem fbOk_fbPutAll {ps : List (Int × Int)} {c : Nat} {m : Memory} (hm : fbOk m) (hc : c ≤ Config.indexMax)
    (hps : ∀ p ∈ ps, fbOff p.1.toNat p.2.toNat < Config.ncells) : fbOk (fbPutAll ps (BitVec.ofNat 8 c) m) := by
  refine ⟨fbPutAll_wf hm.1 hps, fun d hd => ?_⟩
  rcases mem_fbPutAll hd with h | h
  · rw [h]; exact toNat_color_le hc
  · exact hm.2 d h

/-- One cell is a list of one pixel. -/
theorem fbPut_eq_fbPutAll (x y : Nat) (v : Byte) (m : Memory) : fbPut x y v m = fbPutAll [((x : Int), (y : Int))] v m := rfl

/-- RGB is canonical and full after a CONVERT (R23). -/
theorem rgbOk_conv (fb : Memory) : rgbOk true (conv fb) :=
  ⟨conv_wf fb, fun _ => conv_full fb, fun h => absurd h (by decide)⟩

/-- A fault of a cause 1..7 keeps FIRST_CAUSE in step with HALTED (R26, R143). -/
theorem statusOk_haltStatus {c : Cause} (hnone : c ≠ .none) (hhalted : c ≠ .halted) (st : Status) :
    statusOk (haltStatus c st) :=
  ⟨hhalted, by simp [hnone]⟩

/-! ## The updates of the state that keep it -/

/-- A response is no part of the invariant. -/
theorem inv_respond {s : State} (h : s.Inv) (c : Cause) (d : BitVec 16) : (respond c d s).Inv := h

theorem inv_haltedReply {s : State} (h : s.Inv) : (haltedReply s).Inv := h

/-- What the host does next is no part of the invariant. -/
theorem inv_setInputs {s : State} (h : s.Inv) (l : List HostInput) : (setInputs l s).Inv := h

theorem inv_setFb {s : State} (h : s.Inv) {m : Memory} (hm : fbOk m) : (setFb m s).Inv := ⟨hm, h.2⟩

theorem inv_raiseFault {s : State} (h : s.Inv) {c : Cause} (hnone : c ≠ .none) (hhalted : c ≠ .halted) :
    (raiseFault c s).Inv := by
  obtain ⟨hfb, hrgb, -, hups⟩ := h
  exact ⟨hfb, hrgb, statusOk_haltStatus hnone hhalted s.status, hups⟩

/-- RGB and RGB_VALID change together, so a CONVERT keeps the invariant (R111). -/
theorem inv_convert {s : State} (h : s.Inv) : (setStatus (validStatus s.status) (setRgb (conv s.fb) s)).Inv := by
  obtain ⟨hfb, -, hst, hups⟩ := h
  exact ⟨hfb, rgbOk_conv s.fb, hst, hups⟩

/-- An upload while RGB_VALID is 1 records a full RGB (R157). -/
theorem inv_recordUpload {s : State} (h : s.Inv) (hvalid : s.status.rgbValid = true) : (recordUpload s).Inv := by
  obtain ⟨hfb, ⟨hwf, hfull, hempty⟩, hst, hups⟩ := h
  exact ⟨hfb, ⟨hwf, hfull, hempty⟩, hst, List.forall_mem_cons.2 ⟨⟨hwf, hfull hvalid⟩, hups⟩⟩

/-- A reset brings the block into the invariant whatever it held; only the recorded uploads stay (R170). -/
theorem inv_applyReset {s : State} (hups : uploadsOk s.uploads) : (applyReset s).Inv := by
  have hfb : fbOk [] := ⟨nil_wf .fb, fun _ hc => absurd hc List.not_mem_nil⟩
  have hrgb : rgbOk false [] := ⟨nil_wf .rgb, fun h => absurd h (by decide), fun _ => rfl⟩
  have hst : statusOk Status.reset := by decide
  exact ⟨hfb, hrgb, hst, hups⟩

theorem inv_tickMove {s : State} (h : s.Inv) (active : Bool) : (tickMove active s).Inv := by
  cases active with
  | true => exact inv_setInputs h _
  | false => exact h

/-! ## The moves that keep it -/

/-- Every command keeps the invariant: the two that write FB write palette indices into FB's cells. -/
theorem exec_keeps_inv {i : Instr} {s t : State} (hs : s.Inv) (h : exec i s = .next t) : t.Inv := by
  rcases exec_cases h with ⟨-, -, rfl⟩ | ⟨-, c, hnone, hhalted, rfl⟩ | ⟨-, rfl⟩ | ⟨-, heffect⟩
  · exact inv_haltedReply hs
  · exact inv_raiseFault hs hnone hhalted
  · exact inv_respond hs _ _
  · rcases heffect with ⟨x, y, c, -, hx, hy, hc, rfl⟩ | ⟨x, y, -, rfl⟩ |
      ⟨x0, y0, x1, y1, c, -, hx0, hy0, hx1, hy1, hc, rfl⟩ | ⟨-, rfl⟩ | ⟨off, v, -, -, -, -, rfl⟩
    · rw [fbPut_eq_fbPutAll]
      exact inv_respond (inv_setFb hs (fbOk_fbPutAll hs.1 hc (by simpa using fbOff_lt hx hy))) _ _
    · exact inv_respond hs _ _
    · have hcells := fun p hp => fbOff_lt_of_mem_linePixels hx0 hy0 hx1 hy1 (p := p) hp
      exact inv_respond (inv_setFb hs (fbOk_fbPutAll hs.1 hc hcells)) _ _
    · exact inv_respond (inv_convert hs) _ _
    · exact inv_respond hs _ _

/-- Every command word keeps the invariant, an illegal one included. -/
theorem commandMove_keeps_inv {w : CmdWord} {s t : State} (hs : s.Inv) (h : commandMove w s = .next t) : t.Inv := by
  rcases commandMove_cases h with ⟨i, -, hi⟩ | ⟨e, -, ⟨-, rfl⟩ | ⟨-, rfl⟩⟩
  · exact exec_keeps_inv hs hi
  · exact inv_haltedReply hs
  · exact inv_raiseFault hs (by decide) (by decide)

/-- Settles O38: each move of the host keeps the invariant, by the cases of a step. -/
theorem stepKeepsInv : Obligations.StepKeepsInv := by
  intro s t hs h
  rcases step_cases h with ⟨-, rfl⟩ | ⟨rest, hmove⟩
  · exact hs
  · replace hs := inv_setInputs hs rest
    rcases hmove with ⟨w, -, hw⟩ | ⟨-, rfl⟩ | ⟨-, hvalid, rfl⟩ | ⟨width, height, -, rfl⟩ | ⟨active, -, rfl⟩
    · exact commandMove_keeps_inv hs hw
    · obtain ⟨-, -, -, hups⟩ := hs
      exact inv_applyReset hups
    · exact inv_recordUpload hs hvalid
    · exact hs
    · exact inv_tickMove hs active

/-- Settles O37: the reset state is a reset of itself, with no upload recorded. -/
theorem invHoldsAtReset : Obligations.InvHoldsAtReset :=
  inv_applyReset (s := State.reset) fun _ hu => absurd hu List.not_mem_nil

end Sys2Proof.Machine
end

section
/-! The STATUS register's fields (R26) and the palette's rows (R25). -/

namespace Sys2Proof.Machine

/-- The fields of the STATUS register (R26). -/
theorem statusWord_fields (st : Status) :
    (statusWord st).extractLsb' 0 1 = BitVec.ofBool st.halted ∧
      (statusWord st).extractLsb' 1 1 = BitVec.ofBool st.rgbValid ∧ (statusWord st).extractLsb' 2 2 = 0#2 ∧
      (statusWord st).extractLsb' 4 4 = causeCode st.firstCause ∧ (statusWord st).extractLsb' 8 8 = 0#8 := by
  have hword := statusWord_toNat st
  have hhalted := Bool.toNat_lt st.halted
  have hvalid := Bool.toNat_lt st.rgbValid
  have hcause := (causeCode st.firstCause).isLt
  refine ⟨?_, ?_, ?_, ?_, ?_⟩ <;> apply BitVec.eq_of_toNat_eq <;>
    simp only [BitVec.extractLsb'_toNat, Nat.shiftRight_eq_div_pow, hword, BitVec.toNat_ofBool, BitVec.toNat_ofNat] <;>
    omega

/-- A code names one cause. -/
theorem causeCode_eq_iff {c d : Cause} : causeCode c = causeCode d ↔ c = d := ⟨causeCode_inj, congrArg causeCode⟩

/-- Settles O36: the register's fields, and the invariant's clause about FIRST_CAUSE read off its codes. -/
theorem statusRegisterHoldsItsFields : Obligations.StatusRegisterHoldsItsFields := by
  refine ⟨statusWord_fields, ?_⟩
  rintro s ⟨-, -, ⟨hnever, hzero⟩, -⟩
  obtain ⟨hhalted, -, -, hcause, -⟩ := statusWord_fields s.status
  rw [hhalted, hcause]
  constructor
  · calc causeCode s.status.firstCause = 0#4
      _ ↔ s.status.firstCause = .none := causeCode_eq_iff (d := .none)
      _ ↔ s.status.halted = false := hzero
      _ ↔ BitVec.ofBool s.status.halted = 0#1 := by cases s.status.halted <;> decide
  · exact (causeCode_eq_iff (d := .halted)).not.2 hnever

/-- Settles O55: the sixteen rows, compared one by one with R25's table. -/
theorem paletteIsTheTable : Obligations.PaletteIsTheTable := by
  unfold Obligations.PaletteIsTheTable
  decide

end Sys2Proof.Machine
end

section
/-! Who writes FB, RGB and STATUS, and which words read FB and RGB (R22, R23, R24, R32). -/

namespace Sys2Proof.Machine

/-! ## Who writes -/

/-- What a command can change: FB by a PLOT or a DRAW_LINE (R22), RGB by a CONVERT (R23), STATUS by a fault or by a CONVERT
that completes (R32). -/
theorem exec_changes {i : Instr} {s t : State} (h : exec i s = .next t) :
    (t.fb = s.fb ∨ (∃ x y c, i = .plot x y c) ∨ ∃ x0 y0 x1 y1 c, i = .drawLine x0 y0 x1 y1 c) ∧
    (t.rgb = s.rgb ∨ i = .convert) ∧
    (t.status = s.status ∨ s.status.halted = false ∧
      ((∃ c, c ≠ .none ∧ c ≠ .halted ∧ t.status = haltStatus c s.status) ∨
       (i = .convert ∧ t.status = validStatus s.status))) := by
  rcases exec_cases h with ⟨-, -, rfl⟩ | ⟨hrun, c, hnone, hhalted, rfl⟩ | ⟨-, rfl⟩ | ⟨hrun, heffect⟩
  · exact ⟨.inl rfl, .inl rfl, .inl rfl⟩
  · exact ⟨.inl rfl, .inl rfl, .inr ⟨hrun, .inl ⟨c, hnone, hhalted, rfl⟩⟩⟩
  · exact ⟨.inl rfl, .inl rfl, .inl rfl⟩
  · rcases heffect with ⟨x, y, c, rfl, -, -, -, rfl⟩ | ⟨x, y, rfl, rfl⟩ |
      ⟨x0, y0, x1, y1, c, rfl, -, -, -, -, -, rfl⟩ | ⟨rfl, rfl⟩ | ⟨off, v, rfl, -, -, -, rfl⟩
    · exact ⟨.inr (.inl ⟨x, y, c, rfl⟩), .inl rfl, .inl rfl⟩
    · exact ⟨.inl rfl, .inl rfl, .inl rfl⟩
    · exact ⟨.inr (.inr ⟨x0, y0, x1, y1, c, rfl⟩), .inl rfl, .inl rfl⟩
    · exact ⟨.inl rfl, .inr rfl, .inr ⟨hrun, .inr ⟨rfl, rfl⟩⟩⟩
    · exact ⟨.inl rfl, .inl rfl, .inl rfl⟩

/-- A move of the host that changes the block is a reset, a word whose command changes it, or an illegal word whose fault does. -/
theorem hostMove_writes {m : HostInput} {s t : State} (h : hostMove m s = .next t) (hne : ¬ sameBlock s t) :
    m = .reset ∨ ∃ w, m = .command w ∧
      ((∃ i, decodeWord w = .ok i ∧ exec i s = .next t) ∨
       (s.status.halted = false ∧ t = raiseFault .illegalCommand s)) := by
  rcases hostMove_cases h with ⟨w, rfl, hw⟩ | ⟨rfl, -⟩ | ⟨-, hsame, -⟩
  · rcases commandMove_cases hw with hdecoded | ⟨e, -, ⟨-, rfl⟩ | hfault⟩
    · exact .inr ⟨w, rfl, .inl hdecoded⟩
    · exact absurd ⟨rfl, rfl, rfl⟩ hne
    · exact .inr ⟨w, rfl, .inr hfault⟩
  · exact .inl rfl
  · exact absurd hsame hne

/-- Settles O41: a move that changes STATUS is a reset, an illegal word's fault, or a command that faults or converts. -/
theorem statusChangesOnlyAsRuled : Obligations.StatusChangesOnlyAsRuled := by
  intro m s t h hne
  rcases hostMove_writes h (fun hsame => hne hsame.2.2) with rfl | ⟨w, rfl, ⟨i, hi, hx⟩ | ⟨hrun, rfl⟩⟩
  · exact .inl rfl
  · obtain ⟨-, -, hst⟩ := exec_changes hx
    obtain ⟨hrun, hfault | ⟨rfl, hvalid⟩⟩ := hst.resolve_left hne
    · exact .inr ⟨w, rfl, hrun, .inl hfault⟩
    · exact .inr ⟨w, rfl, hrun, .inr ⟨hi, hvalid⟩⟩
  · exact .inr ⟨w, rfl, hrun, .inl ⟨.illegalCommand, by decide, by decide, rfl⟩⟩

/-! ## Who reads -/

/-- Replace the contents of one of the two spaces: the update under which a command that does not read the space answers the
same. -/
def setSpace : Space → Memory → State → State
  | .fb => setFb
  | .rgb => setRgb

@[simp] theorem setSpace_status (sp : Space) (m : Memory) (s : State) : (setSpace sp m s).status = s.status := by
  cases sp <;> rfl

theorem haltedReply_setSpace (sp : Space) (m : Memory) (s : State) :
    haltedReply (setSpace sp m s) = setSpace sp m (haltedReply s) := by
  cases sp <;> rfl

theorem raiseFault_setSpace (sp : Space) (m : Memory) (c : Cause) (s : State) :
    raiseFault c (setSpace sp m s) = setSpace sp m (raiseFault c s) := by
  cases sp <;> rfl

/-- The result `r` with another memory in the space is `r` again, up to what the space holds afterwards. -/
def agreesOutside (sp : Space) (t : State) (r : Result) : Prop := ∃ m, r = .next (setSpace sp m t)

/-- `serve` does not depend on a space that neither its check nor what it runs depends on. -/
theorem serve_agreesOutside {sp : Space} {m : Memory} {check : State → Option Cause} {run : State → Result} {s t : State}
    (hcheck : check (setSpace sp m s) = check s)
    (hrun : run s = .next t → agreesOutside sp t (run (setSpace sp m s)))
    (h : serve check run s = .next t) : agreesOutside sp t (serve check run (setSpace sp m s)) := by
  rcases serve_cases h with ⟨hh, rfl⟩ | ⟨hh, c, hc, rfl⟩ | ⟨hh, hc, hr⟩
  · exact ⟨m, by rw [serve_halted (by simpa using hh), haltedReply_setSpace]⟩
  · exact ⟨m, by rw [serve_fault (by simpa using hh) (hcheck.trans hc), raiseFault_setSpace]⟩
  · rw [serve_run (by simpa using hh) (hcheck.trans hc)]
    exact hrun hr

/-- The same for a command or an illegal word that always completes past its check. -/
theorem serve_next_agreesOutside {sp : Space} {m : Memory} {check : State → Option Cause} {effect : State → State}
    {s t : State} (hcheck : check (setSpace sp m s) = check s)
    (heffect : ∃ m', effect (setSpace sp m s) = setSpace sp m' (effect s))
    (h : serve check (fun t => .next (effect t)) s = .next t) :
    agreesOutside sp t (serve check (fun t => .next (effect t)) (setSpace sp m s)) := by
  refine serve_agreesOutside hcheck (fun hr => ?_) h
  cases hr
  obtain ⟨m', he⟩ := heffect
  exact ⟨m', congrArg Host.Outcome.next he⟩

/-- A command other than READ_PIXEL and CONVERT does not depend on FB (R22). -/
theorem exec_agreesOutside_fb {i : Instr} {s t : State} (m : Memory) (hread : ∀ x y, i ≠ .readPixel x y)
    (hconv : i ≠ .convert) (h : exec i s = .next t) : agreesOutside .fb t (exec i (setSpace .fb m s)) := by
  cases i with
  | plot x y c =>
    simp only [exec, execPlot] at h ⊢
    exact serve_next_agreesOutside rfl ⟨_, rfl⟩ h
  | readPixel x y => exact absurd rfl (hread x y)
  | drawLine x0 y0 x1 y1 c =>
    simp only [exec, execDrawLine] at h ⊢
    exact serve_next_agreesOutside rfl ⟨_, rfl⟩ h
  | convert => exact absurd rfl hconv
  | readRgb off =>
    simp only [exec, execReadRgb] at h ⊢
    refine serve_agreesOutside (by rw [setSpace_status]) (fun hr => ?_) h
    have hbyte : rgbRead off (setSpace .fb m s) = rgbRead off s := rfl
    rw [hbyte]
    cases hv : rgbRead off s with
    | none => simp [hv] at hr
    | some v =>
      simp only [hv] at hr ⊢
      cases hr
      exact ⟨m, rfl⟩
  | readStatus =>
    cases h
    exact ⟨m, rfl⟩

/-- A command other than READ_RGB does not depend on RGB (R24). -/
theorem exec_agreesOutside_rgb {i : Instr} {s t : State} (m : Memory) (hread : ∀ off, i ≠ .readRgb off)
    (h : exec i s = .next t) : agreesOutside .rgb t (exec i (setSpace .rgb m s)) := by
  cases i with
  | plot x y c =>
    simp only [exec, execPlot] at h ⊢
    exact serve_next_agreesOutside rfl ⟨m, rfl⟩ h
  | readPixel x y =>
    simp only [exec, execReadPixel] at h ⊢
    exact serve_next_agreesOutside rfl ⟨m, rfl⟩ h
  | drawLine x0 y0 x1 y1 c =>
    simp only [exec, execDrawLine] at h ⊢
    exact serve_next_agreesOutside rfl ⟨m, rfl⟩ h
  | convert =>
    simp only [exec, execConvert] at h ⊢
    exact serve_next_agreesOutside rfl ⟨conv s.fb, rfl⟩ h
  | readRgb off => exact absurd rfl (hread off)
  | readStatus =>
    cases h
    exact ⟨m, rfl⟩

/-- A word depends on a space no more than its command does; an illegal word depends on neither. -/
theorem commandMove_agreesOutside {sp : Space} {m : Memory} {w : CmdWord} {s t : State}
    (hexec : ∀ i, decodeWord w = .ok i → exec i s = .next t → agreesOutside sp t (exec i (setSpace sp m s)))
    (h : commandMove w s = .next t) : agreesOutside sp t (commandMove w (setSpace sp m s)) := by
  unfold commandMove at h ⊢
  cases hd : decodeWord w with
  | ok i => rw [hd] at h; exact hexec i hd h
  | error e =>
    rw [hd] at h
    exact serve_next_agreesOutside rfl ⟨m, rfl⟩ h

/-- Settles O39: the writers of FB by the cases of a move, and its readers by running the word with another FB. -/
theorem fbIsReachedOnlyAsRuled : Obligations.FbIsReachedOnlyAsRuled := by
  constructor
  · intro h s t hmove hne
    rcases hostMove_writes hmove (fun hsame => hne hsame.1) with rfl | ⟨w, rfl, ⟨i, hi, hx⟩ | ⟨-, rfl⟩⟩
    · exact .inl rfl
    · obtain ⟨hfb, -, -⟩ := exec_changes hx
      obtain ⟨x, y, c, rfl⟩ | ⟨x0, y0, x1, y1, c, rfl⟩ := hfb.resolve_left hne
      · exact .inr ⟨w, rfl, .inl ⟨x, y, c, hi⟩⟩
      · exact .inr ⟨w, rfl, .inr ⟨x0, y0, x1, y1, c, hi⟩⟩
    · exact absurd rfl hne
  · intro w s t m hread hconv h
    have hexec : ∀ i, decodeWord w = .ok i → exec i s = .next t → agreesOutside .fb t (exec i (setSpace .fb m s)) :=
      fun i hi => exec_agreesOutside_fb m (fun x y he => hread x y (he ▸ hi)) (fun he => hconv (he ▸ hi))
    obtain ⟨m', hu⟩ := commandMove_agreesOutside hexec h
    exact ⟨_, hu, rfl, rfl, rfl, rfl, rfl⟩

/-- Settles O40: the writers of RGB by the cases of a move, and its readers by running the word with another RGB. -/
theorem rgbIsReachedOnlyAsRuled : Obligations.RgbIsReachedOnlyAsRuled := by
  constructor
  · intro h s t hmove hne
    rcases hostMove_writes hmove (fun hsame => hne hsame.2.1) with rfl | ⟨w, rfl, ⟨i, hi, hx⟩ | ⟨-, rfl⟩⟩
    · exact .inl rfl
    · obtain ⟨-, hrgb, -⟩ := exec_changes hx
      obtain rfl := hrgb.resolve_left hne
      exact .inr ⟨w, rfl, hi⟩
    · exact absurd rfl hne
  · intro w s t m hread h
    have hexec : ∀ i, decodeWord w = .ok i → exec i s = .next t → agreesOutside .rgb t (exec i (setSpace .rgb m s)) :=
      fun i hi => exec_agreesOutside_rgb m (fun off he => hread off (he ▸ hi))
    obtain ⟨m', hu⟩ := commandMove_agreesOutside hexec h
    exact ⟨_, hu, rfl, rfl, rfl, rfl, rfl⟩

end Sys2Proof.Machine
end

section
/-! Words as bytes (R45) and FB's cells as offsets (R40). -/

namespace Sys2Proof

/-- Byte `k` of the low bytes of a number: they stand least significant first (R45). -/
theorem getElem?_leBytes {n k : Nat} (hk : k < n) (v : Nat) : (leBytes n v)[k]? = some (BitVec.ofNat 8 (v / 256 ^ k)) := by
  induction n generalizing k v with
  | zero => exact absurd hk (Nat.not_lt_zero k)
  | succ n ih =>
    cases k with
    | zero => simp [leBytes]
    | succ k => rw [leBytes, List.getElem?_cons_succ, ih (Nat.lt_of_succ_lt_succ hk), Nat.div_div_eq_div_mul, Nat.pow_succ']

/-- Bits `8k+7:8k` of a word are the `k`-th digit of its number in base 256. -/
theorem extractLsb'_byte {n : Nat} (w : BitVec n) (k : Nat) :
    w.extractLsb' (8 * k) 8 = BitVec.ofNat 8 (w.toNat / 256 ^ k) := by
  have hpow : 256 ^ k = 2 ^ (8 * k) := by rw [Nat.pow_mul]
  rw [BitVec.extractLsb', Nat.shiftRight_eq_div_pow, hpow]

/-- The word at the head of a command word's bytes is the word itself (R45). -/
theorem takeWord_cmdBytes (w : CmdWord) (rest : List Byte) : takeWord (cmdBytes w ++ rest) = some (w, rest) := by
  have hword : BitVec.ofNat 64 (leValue (cmdBytes w)) = w := by
    rw [cmdBytes, leValue_leBytes, Nat.mod_eq_of_lt (show w.toNat < 256 ^ 8 from w.isLt), BitVec.ofNat_toNat,
      BitVec.setWidth_eq]
  calc takeWord (cmdBytes w ++ rest)
    _ = some (BitVec.ofNat 64 (leValue (cmdBytes w)), rest) := rfl
    _ = some (w, rest) := by rw [hword]

/-- Settles O6: a word's bytes are its base 256 digits, and the word they spell is the word again. -/
theorem wordsTravelLittleEndian : Obligations.WordsTravelLittleEndian := by
  refine ⟨fun w k hk => ?_, fun r k hk => ?_, fun w rest => ?_⟩
  · rw [cmdBytes, getElem?_leBytes hk, extractLsb'_byte]
  · rw [respBytes, getElem?_leBytes hk, extractLsb'_byte]
  · rw [decodeBytes, takeWord_cmdBytes]

end Sys2Proof

namespace Sys2Proof.Machine

/-- Every offset of FB is that of the cell in row `o / 320`, column `o % 320` (R40). -/
theorem fbOff_mod_div (o : Nat) : fbOff (o % Config.width) (o / Config.width) = o := Nat.div_add_mod' o Config.width

/-- Settles O8: the cell of an offset is its quotient and remainder by the width, and no other cell has that offset. -/
theorem cellOffsetsHaveNoGaps : Obligations.CellOffsetsHaveNoGaps := by
  refine ⟨fun _ _ => rfl, fun _ _ => fbOff_lt, fun o ho => ?_⟩
  have hx : o % 320 < 320 := Nat.mod_lt o (by decide)
  have hy : o / 320 < 200 := Nat.div_lt_of_lt_mul ho
  have hcell : fbOff (o % 320) (o / 320) = o := fbOff_mod_div o
  exact ⟨o % 320, o / 320, ⟨hx, hy, hcell⟩, fun x' y' hx' _ ho' => (fbOff_inj hx' hx).1 (ho'.trans hcell.symm)⟩

end Sys2Proof.Machine
end

section
/-! Where a command completes, and where a halted block answers instead (R80, R81, R90, R111, R112, R144). -/

namespace Sys2Proof.Machine

/-- A halted block answers every command but READ_STATUS with HALTED (R144). -/
theorem exec_of_halted {i : Instr} {s : State} (hne : i ≠ .readStatus) (h : s.status.halted = true) :
    exec i s = .next (haltedReply s) := by
  cases i with
  | plot x y c => rw [exec, execPlot, serve_halted h]
  | readPixel x y => rw [exec, execReadPixel, serve_halted h]
  | drawLine x0 y0 x1 y1 c => rw [exec, execDrawLine, serve_halted h]
  | convert => rw [exec, execConvert, serve_halted h]
  | readRgb off => rw [exec, execReadRgb, serve_halted h]
  | readStatus => exact absurd rfl hne

theorem exec_plot_completes {x y c : Nat} {s : State} (hrun : s.status.halted = false) (hx : x < Config.width)
    (hy : y < Config.height) (hc : c ≤ Config.indexMax) :
    exec (.plot x y c) s = .next (respond .none 0#16 (setFb (fbPut x y (BitVec.ofNat 8 c) s.fb) s)) := by
  rw [exec, execPlot, serve_run hrun (checkPointColor_eq_none.2 ⟨hx, hy, hc⟩)]

theorem exec_readPixel_completes {x y : Nat} {s : State} (hrun : s.status.halted = false) (hx : x < Config.width)
    (hy : y < Config.height) : exec (.readPixel x y) s = .next (respond .none ((fbRead x y s).setWidth 16) s) := by
  rw [exec, execReadPixel, serve_run hrun (checkPoint_eq_none.2 ⟨hx, hy⟩)]

theorem exec_drawLine_completes {x0 y0 x1 y1 c : Nat} {s : State} (hrun : s.status.halted = false)
    (hx0 : x0 < Config.width) (hy0 : y0 < Config.height) (hx1 : x1 < Config.width) (hy1 : y1 < Config.height)
    (hc : c ≤ Config.indexMax) :
    exec (.drawLine x0 y0 x1 y1 c) s =
      .next (respond .none 0#16 (setFb (fbPutAll (linePixels x0 y0 x1 y1) (BitVec.ofNat 8 c) s.fb) s)) := by
  rw [exec, execDrawLine, serve_run hrun (checkLine_eq_none.2 ⟨hx0, hy0, hx1, hy1, hc⟩)]

theorem exec_convert_completes {s : State} (hrun : s.status.halted = false)
    (hcells : ∀ o, o < Config.ncells → (fbByte o s.fb).toNat ≤ Config.indexMax) :
    exec .convert s = .next (respond .none 0#16 (setStatus (validStatus s.status) (setRgb (conv s.fb) s))) := by
  rw [exec, execConvert, serve_run hrun (checkIndices_eq_none.2 hcells)]

theorem exec_readRgb_completes {off : Nat} {s : State} {v : Byte} (hrun : s.status.halted = false)
    (hoff : off < Config.nrgb) (hvalid : s.status.rgbValid = true) (hv : rgbRead off s = some v) :
    exec (.readRgb off) s = .next (respond .none (v.setWidth 16) s) := by
  have hcheck : (checkOff off).or (checkValid s.status) = none :=
    Option.or_eq_none_iff.2 ⟨checkOff_eq_none.2 hoff, checkValid_eq_none.2 hvalid⟩
  rw [exec, execReadRgb, serve_run hrun hcheck, hv]

/-- READ_PIXEL leaves a running block running only on legal operands (R81). -/
theorem lt_of_exec_readPixel {x y : Nat} {s t : State} (h : exec (.readPixel x y) s = .next t)
    (ht : t.status.halted = false) : x < Config.width ∧ y < Config.height := by
  simp only [exec, execReadPixel] at h
  rcases serve_cases h with ⟨hhalted, rfl⟩ | ⟨-, c, -, rfl⟩ | ⟨-, hcheck, -⟩
  · exact absurd (ht.symm.trans hhalted) (by decide)
  · exact absurd ht (by simp)
  · exact checkPoint_eq_none.1 hcheck

/-- Where the invariant holds every cell of FB is a palette index (R21). -/
theorem fbByte_le_of_fbOk {m : Memory} (h : fbOk m) (a : Nat) : (fbByte a m).toNat ≤ Config.indexMax := by
  unfold fbByte
  cases hl : memLookup a m with
  | none => decide
  | some v => exact h.2 _ (mem_of_memLookup hl)

/-- RGB after a CONVERT, by pixel and component (R113). -/
theorem memRead_conv_pixel {x y j : Nat} (fb : Memory) (hx : x < Config.width) (hy : y < Config.height) (hj : j < 3) :
    memRead .rgb (3 * fbOff x y + j) (conv fb) =
      some (tripleByte (pal (BitVec.ofNat 4 (fbByte (fbOff x y) fb).toNat)) j) := by
  have hoff := fbOff_lt hx hy
  have hin : 3 * fbOff x y + j < Config.nrgb := by
    simp only [Config.nrgb, Config.bytesPerPixel]
    omega
  have hcell : (3 * fbOff x y + j) / 3 = fbOff x y := by omega
  have hcomp : (3 * fbOff x y + j) % 3 = j := by omega
  rw [memRead_conv, if_pos hin, hcell, hcomp, cellIndex, BitVec.ofNat_toNat]

end Sys2Proof.Machine
end

section
/-! A CONVERT and the upload after it (R56, R176). -/

namespace Sys2Proof.Machine

/-- A command word at the head of the channel is what the step runs (R51). -/
theorem step_command {s : State} {w : CmdWord} {rest : List HostInput} (h : s.inputs = .command w :: rest) :
    step s = commandMove w (setInputs rest s) := by
  simp [step, nextMove, h, hostMove]

/-- An upload at the head of the channel records RGB once a CONVERT has completed (R157). -/
theorem step_upload {s : State} {rest : List HostInput} (h : s.inputs = .upload :: rest)
    (hvalid : s.status.rgbValid = true) : step s = .next (recordUpload (setInputs rest s)) := by
  simp [step, nextMove, h, hostMove, uploadMove, hvalid]

/-- Settles O27: the CONVERT passes its check under the invariant and leaves RGB as `conv` of FB, which the upload records. -/
theorem uploadAfterConvertShowsTheFrame : Obligations.UploadAfterConvertShowsTheFrame := by
  intro s rest hinv hrun hin
  obtain ⟨hfb, -, -, -⟩ := hinv
  have hdecode : decodeWord 0x0000000000000004#64 = .ok .convert := by decide
  have hconvert : step s = exec .convert (setInputs (.upload :: rest) s) := by
    rw [step_command hin, commandMove, hdecode]
  exact ⟨_, _, conv s.fb, hconvert.trans (exec_convert_completes hrun fun o _ => fbByte_le_of_fbOk hfb o),
    step_upload rfl rfl, rfl, rfl, rfl,
    fun x y j hx hy hj => memRead_conv_pixel s.fb hx hy hj⟩

end Sys2Proof.Machine
end

section
/-! A command issued twice in a row (R48). -/

namespace Sys2Proof.Machine

/-- Writing the same value to the same pixels again changes nothing (R48). -/
theorem fbPutAll_fbPutAll {ps : List (Int × Int)} {v : Byte} {m : Memory} (hm : Memory.wf .fb m)
    (hps : ∀ p ∈ ps, fbOff p.1.toNat p.2.toNat < Config.ncells) : fbPutAll ps v (fbPutAll ps v m) = fbPutAll ps v m := by
  have hwf := fbPutAll_wf (v := v) hm hps
  refine memory_ext (fbPutAll_wf hwf hps) hwf fun a => ?_
  simp only [memRead_fb, fbByte_fbPutAll]
  split_ifs <;> rfl

theorem fbPut_fbPut {x y : Nat} {v : Byte} {m : Memory} (hm : Memory.wf .fb m) (hx : x < Config.width)
    (hy : y < Config.height) : fbPut x y v (fbPut x y v m) = fbPut x y v m := by
  simp only [fbPut_eq_fbPutAll]
  exact fbPutAll_fbPutAll hm (by simpa using fbOff_lt hx hy)

/-- The CAUSE field of a response is 0 exactly when the command completed (R68, R141). -/
theorem respWord_cause_eq_zero_iff {c : Cause} {d : BitVec 16} : (respWord c d).extractLsb' 0 4 = 0#4 ↔ c = .none := by
  obtain ⟨hcause, -, -, -⟩ := respWord_fields c d
  rw [hcause]
  exact causeCode_eq_iff (d := .none)

/-- A write issued again leaves the block as the first issue did: halted, it does nothing; else it writes the same values. -/
theorem exec_write_again {i : Instr} {s t : State} (hs : s.Inv)
    (hi : (∃ x y c, i = .plot x y c) ∨ (∃ x0 y0 x1 y1 c, i = .drawLine x0 y0 x1 y1 c) ∨ i = .convert)
    (h : exec i s = .next t) : ∃ u, exec i t = .next u ∧ sameBlock t u := by
  have hne : i ≠ .readStatus := by rintro rfl; simp at hi
  have hagain : t.status.halted = true → ∃ u, exec i t = .next u ∧ sameBlock t u :=
    fun hhalted => ⟨_, exec_of_halted hne hhalted, rfl, rfl, rfl⟩
  obtain ⟨hfb, -, -, -⟩ := hs
  rcases exec_cases h with ⟨hhalted, -, rfl⟩ | ⟨-, c, -, -, rfl⟩ | ⟨rfl, -⟩ | ⟨hrun, heffect⟩
  · exact hagain hhalted
  · exact hagain rfl
  · exact absurd rfl hne
  · rcases heffect with ⟨x, y, c, rfl, hx, hy, hc, rfl⟩ | ⟨x, y, rfl, -⟩ |
      ⟨x0, y0, x1, y1, c, rfl, hx0, hy0, hx1, hy1, hc, rfl⟩ | ⟨rfl, rfl⟩ | ⟨off, v, rfl, -⟩
    · exact ⟨_, exec_plot_completes hrun hx hy hc, fbPut_fbPut hfb.1 hx hy, rfl, rfl⟩
    · simp at hi
    · have hcells := fun p hp => fbOff_lt_of_mem_linePixels hx0 hy0 hx1 hy1 (p := p) hp
      exact ⟨_, exec_drawLine_completes hrun hx0 hy0 hx1 hy1 hc, fbPutAll_fbPutAll hfb.1 hcells, rfl, rfl⟩
    · exact ⟨_, exec_convert_completes hrun fun o _ => fbByte_le_of_fbOk hfb o, rfl, rfl, rfl⟩
    · simp at hi

/-- A read that completes only responds, and responds the same when issued again. -/
theorem exec_read_completes {i : Instr} {s t : State} {r : RespWord}
    (hi : (∃ x y, i = .readPixel x y) ∨ (∃ off, i = .readRgb off) ∨ i = .readStatus) (h : exec i s = .next t)
    (hr : t.responses = r :: s.responses) (hok : r.extractLsb' 0 4 = 0#4) :
    ∃ d, t = respond .none d s ∧ exec i t = .next (respond .none d t) := by
  rcases exec_cases h with ⟨-, -, rfl⟩ | ⟨-, c, hnone, -, rfl⟩ | ⟨rfl, rfl⟩ | ⟨hrun, heffect⟩
  · obtain ⟨rfl, -⟩ := List.cons.inj hr
    exact absurd (respWord_cause_eq_zero_iff.1 hok) (by decide)
  · obtain ⟨rfl, -⟩ := List.cons.inj hr
    exact absurd (respWord_cause_eq_zero_iff.1 hok) hnone
  · exact ⟨_, rfl, rfl⟩
  · rcases heffect with ⟨x, y, c, rfl, -⟩ | ⟨x, y, rfl, rfl⟩ | ⟨x0, y0, x1, y1, c, rfl, -⟩ | ⟨rfl, -⟩ |
      ⟨off, v, rfl, hoff, hvalid, hv, rfl⟩
    · simp at hi
    · obtain ⟨hx, hy⟩ := lt_of_exec_readPixel h hrun
      exact ⟨_, rfl, exec_readPixel_completes hrun hx hy⟩
    · simp at hi
    · simp at hi
    · exact ⟨_, rfl, exec_readRgb_completes hrun hoff hvalid hv⟩

/-- Settles O42: the three writes by their effects, the three reads by the response that is all they change. -/
theorem writesAreIdempotentAndReadsPure : Obligations.WritesAreIdempotentAndReadsPure := by
  refine ⟨fun i s t hs hi h => exec_write_again hs hi h, fun i s t r hi h hr hok => ?_⟩
  obtain ⟨d, rfl, hagain⟩ := exec_read_completes hi h hr hok
  obtain ⟨rfl, -⟩ := List.cons.inj hr
  exact ⟨⟨rfl, rfl, rfl⟩, _, hagain, ⟨rfl, rfl, rfl⟩, rfl⟩

end Sys2Proof.Machine
end

section
/-! The encoder and the decoder undo each other (R61 to R67). -/

namespace Sys2Proof

/-! ## The fields as digits of the word's number -/

/-- A field of `n` bits from bit `k` on is a digit of the word's number (R61). -/
theorem extractLsb'_toNat_eq_div (w : CmdWord) (k n : Nat) : (w.extractLsb' k n).toNat = w.toNat / 2 ^ k % 2 ^ n := by
  rw [BitVec.extractLsb'_toNat, Nat.shiftRight_eq_div_pow]

theorem fieldX0_eq (w : CmdWord) : fieldX0 w = w.toNat / 2 ^ 4 % 2 ^ 9 := extractLsb'_toNat_eq_div w 4 9
theorem fieldY0_eq (w : CmdWord) : fieldY0 w = w.toNat / 2 ^ 13 % 2 ^ 8 := extractLsb'_toNat_eq_div w 13 8
theorem fieldX1_eq (w : CmdWord) : fieldX1 w = w.toNat / 2 ^ 21 % 2 ^ 9 := extractLsb'_toNat_eq_div w 21 9
theorem fieldY1_eq (w : CmdWord) : fieldY1 w = w.toNat / 2 ^ 30 % 2 ^ 8 := extractLsb'_toNat_eq_div w 30 8
theorem fieldC_eq (w : CmdWord) : fieldC w = w.toNat / 2 ^ 38 % 2 ^ 8 := extractLsb'_toNat_eq_div w 38 8
theorem fieldOff_eq (w : CmdWord) : fieldOff w = w.toNat / 2 ^ 4 % 2 ^ 18 := extractLsb'_toNat_eq_div w 4 18

/-! ## The encodings as numbers -/

theorem encode_plot_toNat (x y c : Nat) : (encode (.plot x y c)).toNat =
    c % 2 ^ 8 * 2 ^ 38 + y % 2 ^ 8 * 2 ^ 13 + x % 2 ^ 9 * 2 ^ 4 + 1 := by
  simp only [encode, append_toNat, BitVec.toNat_ofNat]
  omega

theorem encode_readPixel_toNat (x y : Nat) : (encode (.readPixel x y)).toNat =
    y % 2 ^ 8 * 2 ^ 13 + x % 2 ^ 9 * 2 ^ 4 + 2 := by
  simp only [encode, append_toNat, BitVec.toNat_ofNat]
  omega

theorem encode_drawLine_toNat (x0 y0 x1 y1 c : Nat) : (encode (.drawLine x0 y0 x1 y1 c)).toNat =
    c % 2 ^ 8 * 2 ^ 38 + y1 % 2 ^ 8 * 2 ^ 30 + x1 % 2 ^ 9 * 2 ^ 21 + y0 % 2 ^ 8 * 2 ^ 13 + x0 % 2 ^ 9 * 2 ^ 4 + 3 := by
  simp only [encode, append_toNat, BitVec.toNat_ofNat]
  omega

theorem encode_readRgb_toNat (off : Nat) : (encode (.readRgb off)).toNat = off % 2 ^ 18 * 2 ^ 4 + 5 := by
  simp only [encode, append_toNat, BitVec.toNat_ofNat]
  omega

/-! ## Each undoes the other -/

/-- The operands of a command that fit their fields are read back from its encoding (R61, R66). -/
theorem operandsOf_encode {i : Instr} (h : i.wf = true) : operandsOf (encode i) (rowOf i) = i := by
  cases i with
  | plot x y c =>
    simp only [Instr.wf, Bool.and_eq_true, decide_eq_true_eq] at h
    simp only [rowOf, operandsOf, fieldX0_eq, fieldY0_eq, fieldC_eq, encode_plot_toNat, Instr.plot.injEq]
    omega
  | readPixel x y =>
    simp only [Instr.wf, Bool.and_eq_true, decide_eq_true_eq] at h
    simp only [rowOf, operandsOf, fieldX0_eq, fieldY0_eq, encode_readPixel_toNat, Instr.readPixel.injEq]
    omega
  | drawLine x0 y0 x1 y1 c =>
    simp only [Instr.wf, Bool.and_eq_true, decide_eq_true_eq] at h
    simp only [rowOf, operandsOf, fieldX0_eq, fieldY0_eq, fieldX1_eq, fieldY1_eq, fieldC_eq, encode_drawLine_toNat,
      Instr.drawLine.injEq]
    omega
  | convert => rfl
  | readRgb off =>
    simp only [Instr.wf, decide_eq_true_eq] at h
    simp only [rowOf, operandsOf, fieldOff_eq, encode_readRgb_toNat, Instr.readRgb.injEq]
    omega
  | readStatus => rfl

/-- Every encoding belongs to its command's own row of the opcode map (R67). -/
theorem encode_matchesWord (i : Instr) : (rowFor (rowOf i)).matchesWord (encode i) = true := by
  cases i with
  | plot x y c => exact Laws.EncodedRow.plot x y c
  | readPixel x y => exact Laws.EncodedRow.readPixel x y
  | drawLine x0 y0 x1 y1 c => exact Laws.EncodedRow.drawLine x0 y0 x1 y1 c
  | convert => exact Laws.EncodedRow.convert
  | readRgb off => exact Laws.EncodedRow.readRgb off
  | readStatus => exact Laws.EncodedRow.readStatus

theorem rowFor_op (op : Op) : (rowFor op).op = op := by cases op <;> rfl

theorem rowFor_mem_opcodeRows (op : Op) : rowFor op ∈ opcodeRows := by rw [mem_opcodeRows, rowFor_op]

/-- A word in the row of an operation decodes to its operation's command (R69). -/
theorem decodeWord_of_rowFor {op : Op} {w : CmdWord} (h : (rowFor op).matchesWord w = true) :
    decodeWord w = .ok (operandsOf w op) := by
  rw [decodeWord_of_matches (rowFor_mem_opcodeRows op) h, rowFor_op]

/-- Settles O2: the encoding stands in its command's row, and the fields of that row give its operands back. -/
theorem decodeInvertsEncode : Obligations.DecodeInvertsEncode := by
  intro i hi
  rw [decodeWord_of_rowFor (encode_matchesWord i), operandsOf_encode hi]

/-- What the fields of a word hold fits them (R61, R66). -/
theorem operandsOf_wf (w : CmdWord) (op : Op) : (operandsOf w op).wf = true := by
  have hx0 : fitsX (fieldX0 w) := BitVec.isLt _
  have hy0 : fitsY (fieldY0 w) := BitVec.isLt _
  have hx1 : fitsX (fieldX1 w) := BitVec.isLt _
  have hy1 : fitsY (fieldY1 w) := BitVec.isLt _
  have hc : fitsC (fieldC w) := BitVec.isLt _
  have hoff : fitsOff (fieldOff w) := BitVec.isLt _
  cases op <;> simp only [operandsOf, Instr.wf, hx0, hy0, hx1, hy1, hc, hoff, decide_true, Bool.and_self]

/-- A word in a row is the encoding of the command it decodes to: its row fixes every bit outside its operands' fields. -/
theorem encode_operandsOf {w : CmdWord} {op : Op} (h : (rowFor op).matchesWord w = true) :
    encode (operandsOf w op) = w := by
  have hw := w.isLt
  apply BitVec.eq_of_toNat_eq
  cases op with
  | plot =>
    simp only [matchesWord_plot, ← BitVec.toNat_inj, extractLsb'_toNat_eq_div, BitVec.toNat_ofNat] at h
    simp only [operandsOf, encode_plot_toNat, fieldX0_eq, fieldY0_eq, fieldC_eq]
    omega
  | readPixel =>
    simp only [matchesWord_readPixel, ← BitVec.toNat_inj, extractLsb'_toNat_eq_div, BitVec.toNat_ofNat] at h
    simp only [operandsOf, encode_readPixel_toNat, fieldX0_eq, fieldY0_eq]
    omega
  | drawLine =>
    simp only [matchesWord_drawLine, ← BitVec.toNat_inj, extractLsb'_toNat_eq_div, BitVec.toNat_ofNat] at h
    simp only [operandsOf, encode_drawLine_toNat, fieldX0_eq, fieldY0_eq, fieldX1_eq, fieldY1_eq, fieldC_eq]
    omega
  | convert =>
    simp only [matchesWord_convert, ← BitVec.toNat_inj, extractLsb'_toNat_eq_div, BitVec.toNat_ofNat] at h
    simp only [operandsOf, encode, append_toNat, BitVec.toNat_ofNat]
    omega
  | readRgb =>
    simp only [matchesWord_readRgb, ← BitVec.toNat_inj, extractLsb'_toNat_eq_div, BitVec.toNat_ofNat] at h
    simp only [operandsOf, encode_readRgb_toNat, fieldOff_eq]
    omega
  | readStatus =>
    simp only [matchesWord_readStatus, ← BitVec.toNat_inj, extractLsb'_toNat_eq_div, BitVec.toNat_ofNat] at h
    simp only [operandsOf, encode, append_toNat, BitVec.toNat_ofNat]
    omega

/-- Settles O3: the row the decoder found holds the word, so no bit of it is dropped. -/
theorem encodeInvertsDecode : Obligations.EncodeInvertsDecode := by
  intro w i h
  obtain ⟨r, hr, hmatch, rfl⟩ := matches_of_decodeWord h
  rw [mem_opcodeRows.1 hr] at hmatch
  exact ⟨operandsOf_wf w r.op, encode_operandsOf hmatch⟩

end Sys2Proof
end

section
/-! The illegal words are the reserved ones, and the matching row decides what a word decodes to (R69, R70). -/

namespace Sys2Proof

/-- Settles O4: a matching row has the word's opcode, which names one row. -/
theorem atMostOneRowMatches : Obligations.AtMostOneRowMatches := by
  intro w
  have hmatch : ∀ r : OpRow, w &&& r.mask = r.pattern ↔ r.matchesWord w = true := fun r => decide_eq_true_iff.symm
  simp only [ne_eq, hmatch]
  refine ⟨fun r hr q hq hrw hqw => ?_, fun r hr hrw => decodeWord_of_matches hr hrw, fun hnone => ?_⟩
  · have hop : r.op = q.op := opcodeOf_inj ((fieldOp_of_matches hr hrw).symm.trans (fieldOp_of_matches hq hqw))
    rw [mem_opcodeRows.1 hr, mem_opcodeRows.1 hq, hop]
  · exact decodeWord_error_iff.2 fun r hr => Bool.eq_false_of_not_eq_true (hnone r hr)

theorem forall_op {P : Op → Prop} :
    (∀ op, P op) ↔ P .plot ∧ P .readPixel ∧ P .drawLine ∧ P .convert ∧ P .readRgb ∧ P .readStatus := by
  constructor
  · exact fun h => ⟨h _, h _, h _, h _, h _, h _⟩
  · rintro ⟨hplot, hreadPixel, hdrawLine, hconvert, hreadRgb, hreadStatus⟩ op
    cases op <;> assumption

/-- An illegal word is in the row of no operation (R69, R70). -/
theorem decodeWord_error_iff_forall_op {w : CmdWord} :
    (∃ e, decodeWord w = .error e) ↔ ∀ op, ¬ (rowFor op).matchesWord w = true := by
  simp only [decodeWord_error_iff, Bool.not_eq_true]
  constructor
  · exact fun h op => h (rowFor op) (rowFor_mem_opcodeRows op)
  · intro h r hr
    rw [mem_opcodeRows.1 hr]
    exact h r.op

/-- An OP is 7..15, 0, or one of the six commands' opcodes (R70). -/
theorem op_cases : ∀ op : BitVec 4,
    7 ≤ op.toNat ∨ op = 0#4 ∨ op = 1#4 ∨ op = 2#4 ∨ op = 3#4 ∨ op = 4#4 ∨ op = 5#4 ∨ op = 6#4 := by
  decide

/-- A word is illegal exactly when its OP is no command's, or a bit its command's format leaves unused is 1 (R70). -/
theorem decodeWord_error_iff_reserved (w : CmdWord) :
    (∃ e, decodeWord w = .error e) ↔
      w.extractLsb' 0 4 = 0#4 ∨ 7 ≤ (w.extractLsb' 0 4).toNat ∨
      (w.extractLsb' 0 4 = 1#4 ∧ (w.extractLsb' 46 18 ≠ 0#18 ∨ w.extractLsb' 21 17 ≠ 0#17)) ∨
      (w.extractLsb' 0 4 = 2#4 ∧ w.extractLsb' 21 43 ≠ 0#43) ∨
      (w.extractLsb' 0 4 = 3#4 ∧ w.extractLsb' 46 18 ≠ 0#18) ∨
      (w.extractLsb' 0 4 = 4#4 ∧ w.extractLsb' 4 60 ≠ 0#60) ∨
      (w.extractLsb' 0 4 = 5#4 ∧ w.extractLsb' 22 42 ≠ 0#42) ∨
      (w.extractLsb' 0 4 = 6#4 ∧ w.extractLsb' 4 60 ≠ 0#60) := by
  rw [decodeWord_error_iff_forall_op, forall_op, matchesWord_plot, matchesWord_readPixel, matchesWord_drawLine,
    matchesWord_convert, matchesWord_readRgb, matchesWord_readStatus]
  generalize w.extractLsb' 0 4 = op
  rcases op_cases op with hop | rfl | rfl | rfl | rfl | rfl | rfl | rfl
  · have hne : ∀ k : BitVec 4, k.toNat < 7 → op ≠ k := fun k hk hk' => absurd (hk' ▸ hop) (not_le.2 hk)
    simp [hne, hop]
  -- The opcode is a literal: the one row it leaves open decides, by its own must-be-zero bits.
  all_goals simp [imp_iff_not_or, or_comm]

end Sys2Proof

namespace Sys2Proof.Machine

/-- An illegal word halts a running block with ILLEGAL_COMMAND (R70). -/
theorem commandMove_illegal {w : CmdWord} {e : DecodeError} {s : State} (he : decodeWord w = .error e)
    (hrun : s.status.halted = false) : commandMove w s = .next (raiseFault .illegalCommand s) := by
  rw [commandMove, he]
  exact serve_fault hrun rfl

/-- Settles O5: a word no row holds fails each row's must-be-zero bits or opcode. -/
theorem illegalWordsAreTheReservedOnes : Obligations.IllegalWordsAreTheReservedOnes :=
  fun w => ⟨decodeWord_error_iff_reserved w, fun _ _ he hrun => commandMove_illegal he hrun⟩

end Sys2Proof.Machine
end

section
/-! What the pseudo-instructions plot and read (R72, R96). -/

namespace Sys2Proof.Machine

/-- Walking from `a` towards `b` reaches everything between them. -/
theorem exists_walk_of_mem_uIcc {a b p : Int} (hp : p ∈ Set.uIcc a b) :
    ∃ n ≤ (b - a).natAbs, p = a + (b - a).sign * (n : Nat) := by
  refine ⟨(p - a).natAbs, ?_⟩
  rw [Set.mem_uIcc] at hp
  rcases lt_trichotomy (b - a) 0 with h | h | h
  · rw [Int.sign_eq_neg_one_of_neg h]; omega
  · rw [h, Int.sign_zero]; omega
  · rw [Int.sign_eq_one_of_pos h]; omega

/-- A horizontal line's pixels step along x only (R96). -/
theorem closedPixel_horizontal (x0 x1 y k : Nat) :
    closedPixel x0 y x1 y k = ((x0 : Int) + ((x1 : Int) - x0).sign * k, (y : Int)) := by
  simp [closedPixel, lineDeltas]

/-- A vertical line's pixels step along y only (R96). -/
theorem closedPixel_vertical (x y0 y1 k : Nat) :
    closedPixel x y0 x y1 k = ((x : Int), (y0 : Int) + ((y1 : Int) - y0).sign * k) := by
  by_cases h : (y1 : Int) - y0 = 0
  · simp [closedPixel, lineDeltas, h]
  · simp [closedPixel, lineDeltas, h]

theorem mem_linePixels_iff_closedPixel {x0 y0 x1 y1 : Nat} {p : Int × Int} :
    p ∈ linePixels x0 y0 x1 y1 ↔ ∃ k ≤ majorLength x0 y0 x1 y1, closedPixel x0 y0 x1 y1 k = p := by
  simp only [linePixels_eq_map_closedPixel, List.mem_map, List.mem_range, Nat.lt_succ_iff]

/-- The pixels of a horizontal line are the cells of its row from one end to the other (R96). -/
theorem mem_linePixels_horizontal {x0 x1 y : Nat} {p : Int × Int} :
    p ∈ linePixels x0 y x1 y ↔ p.1 ∈ Set.uIcc (x0 : Int) x1 ∧ p.2 = y := by
  constructor
  · intro hp
    obtain ⟨hx, hy⟩ := mem_uIcc_of_mem_linePixels hp
    exact ⟨hx, by simpa using hy⟩
  · rintro ⟨hx, hy⟩
    obtain ⟨k, hk, hxk⟩ := exists_walk_of_mem_uIcc hx
    refine mem_linePixels_iff_closedPixel.2 ⟨k, le_max_of_le_left hk, ?_⟩
    rw [closedPixel_horizontal, ← hxk, ← hy]

/-- The pixels of a vertical line are the cells of its column from one end to the other (R96). -/
theorem mem_linePixels_vertical {x y0 y1 : Nat} {p : Int × Int} :
    p ∈ linePixels x y0 x y1 ↔ p.1 = x ∧ p.2 ∈ Set.uIcc (y0 : Int) y1 := by
  constructor
  · intro hp
    obtain ⟨hx, hy⟩ := mem_uIcc_of_mem_linePixels hp
    exact ⟨by simpa using hx, hy⟩
  · rintro ⟨hx, hy⟩
    obtain ⟨k, hk, hyk⟩ := exists_walk_of_mem_uIcc hy
    refine mem_linePixels_iff_closedPixel.2 ⟨k, le_max_of_le_right hk, ?_⟩
    rw [closedPixel_vertical, ← hyk, ← hx]

/-- The numbers between two coordinates, as integers, are the coordinates between them. -/
theorem mem_uIcc_natCast {a b : Nat} {p : Int} :
    p ∈ Set.uIcc (a : Int) b ↔ ∃ n : Nat, min a b ≤ n ∧ n ≤ max a b ∧ p = n := by
  rw [Set.mem_uIcc]
  constructor
  · exact fun h => ⟨p.toNat, by omega, by omega, by omega⟩
  · rintro ⟨n, hmin, hmax, rfl⟩
    omega

/-- The last byte of an in-range pixel's triple is in range (R42). -/
theorem rgbOff_add_two_lt {x y : Nat} (hx : x < Config.width) (hy : y < Config.height) :
    rgbOff x y + 2 < Config.nrgb := by
  have hoff := fbOff_lt hx hy
  simp only [rgbOff, Config.nrgb, Config.bytesPerPixel]
  omega

/-- Settles O7: the expansions are R72's by definition, and a straight line's pixels are the cells between its ends. -/
theorem pseudoInstructionsExpand : Obligations.PseudoInstructionsExpand := by
  refine ⟨fun x y => ⟨rfl, fun hx hy => ?_⟩, fun y xa xb c => ⟨rfl, fun p => ?_⟩, fun x ya yb c => ⟨rfl, fun p => ?_⟩⟩
  · exact rgbOff_add_two_lt (Nat.lt_succ_of_le hx) (Nat.lt_succ_of_le hy)
  · simp only [mem_linePixels_horizontal, mem_uIcc_natCast, Prod.ext_iff, ← exists_and_right, and_assoc]
  · simp only [mem_linePixels_vertical, mem_uIcc_natCast, Prod.ext_iff, ← exists_and_left, and_left_comm]

end Sys2Proof.Machine
end

section
/-! Every command word returns one response (R68). -/

namespace Sys2Proof.Machine

/-- The DATA a command returns where it completes (R68): the value read, and 0 for a command that reads nothing. -/
def dataRead : Instr → State → Option (BitVec 16)
  | .readPixel x y, s => some ((fbRead x y s).setWidth 16)
  | .readRgb off, s => (rgbRead off s).map (BitVec.setWidth 16)
  | .readStatus, s => some (statusWord s.status)
  | _, _ => some 0#16

/-- A command returns one response: a cause with DATA 0, or no cause with the data it reads (R68). -/
theorem exec_responds {i : Instr} {s t : State} (h : exec i s = .next t) :
    ∃ c d, t.responses = respWord c d :: s.responses ∧ (c ≠ .none → d = 0#16) ∧ (c = .none → dataRead i s = some d) := by
  rcases exec_cases h with ⟨-, -, rfl⟩ | ⟨-, c, hnone, -, rfl⟩ | ⟨rfl, rfl⟩ | ⟨-, heffect⟩
  · exact ⟨.halted, 0#16, rfl, fun _ => rfl, fun hc => absurd hc (by decide)⟩
  · exact ⟨c, 0#16, rfl, fun _ => rfl, fun hc => absurd hc hnone⟩
  · exact ⟨.none, _, rfl, fun hc => absurd rfl hc, fun _ => rfl⟩
  · rcases heffect with ⟨x, y, c, rfl, -, -, -, rfl⟩ | ⟨x, y, rfl, rfl⟩ |
      ⟨x0, y0, x1, y1, c, rfl, -, -, -, -, -, rfl⟩ | ⟨rfl, rfl⟩ | ⟨off, v, rfl, -, -, hv, rfl⟩
    · exact ⟨.none, _, rfl, fun hc => absurd rfl hc, fun _ => rfl⟩
    · exact ⟨.none, _, rfl, fun hc => absurd rfl hc, fun _ => rfl⟩
    · exact ⟨.none, _, rfl, fun hc => absurd rfl hc, fun _ => rfl⟩
    · exact ⟨.none, _, rfl, fun hc => absurd rfl hc, fun _ => rfl⟩
    · exact ⟨.none, _, rfl, fun hc => absurd rfl hc, fun _ => by rw [dataRead, hv, Option.map_some]⟩

/-- A command word returns one response: that of its command, or a cause with DATA 0 where it is illegal (R68, R70). -/
theorem commandMove_responds {w : CmdWord} {s t : State} (h : commandMove w s = .next t) :
    ∃ c d, t.responses = respWord c d :: s.responses ∧ (c ≠ .none → d = 0#16) ∧
      (∀ i, decodeWord w = .ok i → c = .none → dataRead i s = some d) ∧ (∀ e, decodeWord w = .error e → c ≠ .none) := by
  rcases commandMove_cases h with ⟨i, hi, hexec⟩ | ⟨e, he, hanswer⟩
  · obtain ⟨c, d, hresp, hfault, hread⟩ := exec_responds hexec
    refine ⟨c, d, hresp, hfault, fun j hj => ?_, fun e he => ?_⟩
    · obtain rfl := Except.ok.inj (hi.symm.trans hj)
      exact hread
    · exact absurd (hi.symm.trans he) nofun
  · have hno : ∀ i, decodeWord w ≠ .ok i := fun i hi => absurd (hi.symm.trans he) nofun
    rcases hanswer with ⟨-, rfl⟩ | ⟨-, rfl⟩
    · exact ⟨.halted, 0#16, rfl, fun _ => rfl, fun i hi => absurd hi (hno i), fun _ _ => by decide⟩
    · exact ⟨.illegalCommand, 0#16, rfl, fun _ => rfl, fun i hi => absurd hi (hno i), fun _ _ => by decide⟩

theorem causeCode_le (c : Cause) : (causeCode c).toNat ≤ 8 := by cases c <;> decide

/-- Settles O23: a word answers by the invariant, and the fields of its response are those of its cause and data. -/
theorem everyWordReturnsOneResponse : Obligations.EveryWordReturnsOneResponse := by
  refine ⟨fun w s hinv => ?_, fun w s t h => ?_⟩
  · obtain ⟨-, ⟨-, hfull, -⟩, -, -⟩ := hinv
    exact commandMove_answers hfull w
  · obtain ⟨c, d, hresp, hfault, hread, hillegal⟩ := commandMove_responds h
    obtain ⟨hcause, hzero, hdata, hhigh⟩ := respWord_fields c d
    have hcomplete : causeCode c = 0#4 ↔ c = .none := causeCode_eq_iff (d := .none)
    refine ⟨respWord c d, hresp, hhigh, hzero, hcause ▸ causeCode_le c, ?_⟩
    simp only [hcause, hdata, ne_eq, hcomplete]
    refine ⟨hfault, fun i hi hc => ?_, hillegal⟩
    have hread := hread i hi hc
    cases i with
    | readRgb off =>
      obtain ⟨v, hv, hd⟩ := Option.map_eq_some_iff.1 hread
      exact ⟨v, hv, hd.symm⟩
    | plot | readPixel | drawLine | convert | readStatus => exact (Option.some.inj hread).symm

end Sys2Proof.Machine
end

section
/-! The worked encodings (R73), and how a step meets the channel (log entry 1). -/

namespace Sys2Proof.Machine

/-- Settles O1: each text is assembled and each word decoded, by running both on R73's six rows. -/
theorem workedEncodingsHold : Obligations.WorkedEncodingsHold := by
  unfold Obligations.WorkedEncodingsHold
  decide +kernel

/-- A step does the move at the head of the channel, in the state with that move taken off. -/
theorem step_of_inputs {s : State} {h : HostInput} {rest : List HostInput} (hin : s.inputs = h :: rest) :
    step s = hostMove h (setInputs rest s) := by
  simp [step, nextMove, hin]

/-- Settles O22: the move at the head of the channel is what the step does, a word by what it decodes to. -/
theorem stepRunsTheDecodedCommand : Obligations.StepRunsTheDecodedCommand := by
  refine fun s rest => ⟨fun w i hin hi => ?_, fun w e hin he => ?_, fun h hin => step_of_inputs hin⟩
  · rw [step_command hin, commandMove, hi]
    rfl
  · rw [step_command hin, commandMove, he]
    rfl

end Sys2Proof.Machine
end

section
/-! PLOT and READ_PIXEL: the words of their rows in order of checks, the cells they write and read, and the line of one pixel
(R80, R81, R82). -/

namespace Sys2Proof

/-- A word with the opcode of a row it is not in decodes to nothing: no other row has that opcode (R69, R70). -/
theorem decodeWord_error_of_fieldOp {op : Op} {w : CmdWord} (hop : fieldOp w = opcodeOf op)
    (hrow : (rowFor op).matchesWord w = false) : ∃ e, decodeWord w = .error e := by
  refine decodeWord_error_iff_forall_op.2 fun q hq => ?_
  have hqop : q = op := by
    have hqw := fieldOp_of_matches (rowFor_mem_opcodeRows q) hq
    rw [rowFor_op] at hqw
    exact opcodeOf_inj (hqw.symm.trans hop)
  rw [hqop, hrow] at hq
  exact absurd hq (by decide)

end Sys2Proof

namespace Sys2Proof.Machine

/-! ## A word by its opcode -/

/-- Any word but READ_STATUS's, by its opcode (R145): HALTED, else the must-be-zero bits, else its command. -/
theorem commandMove_of_fieldOp {op : Op} {w : CmdWord} (s : State) (hop : fieldOp w = opcodeOf op) (hne : op ≠ .readStatus) :
    commandMove w s =
      if s.status.halted = true then .next (respond .halted 0#16 s)
      else if w &&& (rowFor op).mask ≠ (rowFor op).pattern then .next (raiseFault .illegalCommand s)
      else exec (operandsOf w op) s := by
  cases hrow : (rowFor op).matchesWord w with
  | false =>
    obtain ⟨e, he⟩ := decodeWord_error_of_fieldOp hop hrow
    rw [if_pos (of_decide_eq_false hrow)]
    split_ifs with hhalted
    · rw [commandMove, he]
      exact serve_halted hhalted
    · exact commandMove_illegal he (Bool.eq_false_of_not_eq_true hhalted)
  | true =>
    have hnot : operandsOf w op ≠ .readStatus := by cases op <;> simp [operandsOf] at hne ⊢
    rw [if_neg (not_not.2 (of_decide_eq_true hrow)), commandMove, decodeWord_of_rowFor hrow]
    split_ifs with hhalted
    · exact exec_of_halted hnot hhalted
    · rfl

/-! ## The checks of a running block, in order -/

theorem checkPoint_eq_ite (x y : Nat) :
    checkPoint x y = if Config.width ≤ x then some .cvX else if Config.height ≤ y then some .cvY else none := by
  simp only [checkPoint, checkX, checkY, require, decide_eq_true_eq, ← not_lt, ite_not]
  split_ifs <;> rfl

theorem checkPointColor_eq_ite (x y c : Nat) :
    checkPointColor x y c =
      if Config.width ≤ x then some .cvX else if Config.height ≤ y then some .cvY
      else if 15 < c then some .cvColor else none := by
  rw [checkPointColor, checkPoint_eq_ite, checkColor, require, Config.indexMax]
  simp only [decide_eq_true_eq, ← not_le, ite_not]
  split_ifs <;> rfl

/-- PLOT on a running block (R80). -/
theorem exec_plot_eq_ite {s : State} (hrun : s.status.halted = false) (x y c : Nat) :
    exec (.plot x y c) s =
      if Config.width ≤ x then .next (raiseFault .cvX s)
      else if Config.height ≤ y then .next (raiseFault .cvY s)
      else if 15 < c then .next (raiseFault .cvColor s)
      else .next (respond .none 0#16 (setFb (fbPut x y (BitVec.ofNat 8 c) s.fb) s)) := by
  have hcheck := checkPointColor_eq_ite x y c
  rw [exec, execPlot]
  split_ifs at hcheck ⊢
  · exact serve_fault hrun hcheck
  · exact serve_fault hrun hcheck
  · exact serve_fault hrun hcheck
  · exact serve_run hrun hcheck

/-- READ_PIXEL on a running block (R81). -/
theorem exec_readPixel_eq_ite {s : State} (hrun : s.status.halted = false) (x y : Nat) :
    exec (.readPixel x y) s =
      if Config.width ≤ x then .next (raiseFault .cvX s)
      else if Config.height ≤ y then .next (raiseFault .cvY s)
      else .next (respond .none ((fbRead x y s).setWidth 16) s) := by
  have hcheck := checkPoint_eq_ite x y
  rw [exec, execReadPixel]
  split_ifs at hcheck ⊢
  · exact serve_fault hrun hcheck
  · exact serve_fault hrun hcheck
  · exact serve_run hrun hcheck

/-! ## PLOT -/

/-- Writing the value a cell already holds leaves FB as it was. -/
theorem memWrite_fbByte {m : Memory} {a : Nat} (hm : Memory.wf .fb m) (ha : a < Config.ncells) :
    memWrite .fb a (fbByte a m) m = m := by
  refine memory_ext (memWrite_wf hm ha) hm fun b => ?_
  rw [memRead_memWrite]
  split_ifs with hb
  · rw [hb, memRead_fb]
  · rfl

/-- Settles O9: the word's opcode leaves PLOT's row alone, and a running block goes through PLOT's checks in order. -/
theorem plotWordFollowsItsRule : Obligations.PlotWordFollowsItsRule := by
  refine ⟨fun w s hop => ?_, fun m a b v => fbByte_memWrite a b v m, fun m a hm ha => memWrite_fbByte hm ha⟩
  have hcolor : BitVec.ofNat 8 (fieldC w) = w.extractLsb' 38 8 := by
    rw [fieldC, BitVec.ofNat_toNat, BitVec.setWidth_eq]
  rw [commandMove_of_fieldOp (op := .plot) s hop (by decide)]
  cases hrun : s.status.halted with
  | true => rfl
  | false =>
    rw [operandsOf, exec_plot_eq_ite hrun, hcolor]
    rfl

/-- Settles O16: PLOT's one write, read back at its cell and elsewhere. -/
theorem plotCompletes : Obligations.PlotCompletes := by
  intro x y c s hrun hx hy hc
  refine ⟨_, exec_plot_completes hrun hx hy hc, ?_, fun a ha => ?_, rfl, rfl, rfl, rfl, rfl⟩
  · rw [fbRead, respond_fb, setFb_fb, fbByte_fbPut, if_pos rfl]
  · rw [respond_fb, setFb_fb, fbPut, memRead_memWrite, if_neg ha]

/-! ## READ_PIXEL -/

/-- A response that reports a byte and no cause, as a number (R68). -/
theorem respWord_none_byte (v : Byte) : respWord .none (v.setWidth 16) = BitVec.ofNat 32 (256 * v.toNat) := by
  have hv := v.isLt
  apply BitVec.eq_of_toNat_eq
  rw [respWord_toNat, BitVec.toNat_setWidth, BitVec.toNat_ofNat, causeCode, BitVec.toNat_ofNat]
  omega

/-- Settles O17: READ_PIXEL's one response, as a number. -/
theorem readPixelCompletes : Obligations.ReadPixelCompletes := by
  intro x y s hrun hx hy
  rw [exec_readPixel_completes hrun hx hy, respond, respWord_none_byte]
  rfl

/-- A command that neither plots a cell nor draws a line through it leaves the cell as it was (R22). -/
theorem exec_keeps_cell {i : Instr} {s t : State} {a : Nat} (h : exec i s = .next t)
    (hplot : ∀ x y c, i = .plot x y c → fbOff x y ≠ a)
    (hline : ∀ x0 y0 x1 y1 c, i = .drawLine x0 y0 x1 y1 c →
      ∀ p ∈ linePixels x0 y0 x1 y1, fbOff p.1.toNat p.2.toNat ≠ a) : fbByte a t.fb = fbByte a s.fb := by
  rcases exec_cases h with ⟨-, -, rfl⟩ | ⟨-, c, -, -, rfl⟩ | ⟨-, rfl⟩ | ⟨-, heffect⟩
  · rfl
  · rfl
  · rfl
  · rcases heffect with ⟨x, y, c, rfl, -, -, -, rfl⟩ | ⟨x, y, -, rfl⟩ |
      ⟨x0, y0, x1, y1, c, rfl, -, -, -, -, -, rfl⟩ | ⟨-, rfl⟩ | ⟨off, v, -, -, -, -, rfl⟩
    · rw [respond_fb, setFb_fb, fbByte_fbPut, if_neg (hplot x y c rfl).symm]
    · rfl
    · rw [respond_fb, setFb_fb, fbByte_fbPutAll, if_neg]
      rintro ⟨p, hp, ha⟩
      exact hline x0 y0 x1 y1 c rfl p hp ha.symm
    · rfl
    · rfl

/-- A move of the host that does not write a cell leaves it as it was, unless it is a reset (R22). -/
theorem hostMove_keeps_cell {m : HostInput} {s t : State} {a : Nat} (h : hostMove m s = .next t) (hne : m ≠ .reset)
    (hleaves : leavesCell a m) : fbByte a t.fb = fbByte a s.fb := by
  rcases hostMove_cases h with ⟨w, rfl, hw⟩ | ⟨rfl, -⟩ | ⟨-, ⟨hfb, -, -⟩, -⟩
  · obtain ⟨hplot, hline⟩ := hleaves w rfl
    rcases commandMove_cases hw with ⟨i, hi, hexec⟩ | ⟨e, -, ⟨-, rfl⟩ | ⟨-, rfl⟩⟩
    · exact exec_keeps_cell hexec (fun x y c hic => hplot x y c (hic ▸ hi))
        (fun x0 y0 x1 y1 c hic => hline x0 y0 x1 y1 c (hic ▸ hi))
    · rfl
    · rfl
  · exact absurd rfl hne
  · rw [hfb]

/-- After a reset every cell is 0 (R20). -/
theorem fbByte_of_hostMove_reset {s t : State} (a : Nat) (h : hostMove .reset s = .next t) : fbByte a t.fb = 0#8 := by
  cases h
  rfl

/-- Settles O10: the word's opcode leaves READ_PIXEL's row alone, a reset empties FB, and any other move that does not write
a cell keeps it. -/
theorem readPixelWordFollowsItsRule : Obligations.ReadPixelWordFollowsItsRule := by
  refine ⟨fun w s hop => ?_, fun s a hinv => ?_, fun a => rfl, fun s t a h => fbByte_of_hostMove_reset a h,
    fun m s t a h hleaves hzero => ?_⟩
  · rw [commandMove_of_fieldOp (op := .readPixel) s hop (by decide)]
    cases hrun : s.status.halted with
    | true => rfl
    | false =>
      rw [operandsOf, exec_readPixel_eq_ite hrun]
      rfl
  · obtain ⟨hfb, -, -, -⟩ := hinv
    exact fbByte_le_of_fbOk hfb a
  · by_cases hreset : m = .reset
    · subst hreset
      exact fbByte_of_hostMove_reset a h
    · rw [hostMove_keeps_cell h hreset hleaves, hzero]

/-! ## A line of one pixel -/

/-- A line from a point to itself has that point as its one pixel: neither loop runs (R90). -/
theorem linePixels_self (x y : Nat) : linePixels x y x y = [((x : Int), (y : Int))] := by
  simp [linePixels, lineRasters, lineDeltas, rasterRun, rasterStart]

/-- A line from a point to itself passes the checks PLOT makes of that point. -/
theorem checkLine_self (x y c : Nat) : checkLine x y x y c = checkPointColor x y c := by
  rw [checkLine, checkPointColor, ← Option.or_assoc, Option.or_self]

/-- Settles O44: the same checks, and the same one cell written. -/
theorem plotIsAZeroLengthLine : Obligations.PlotIsAZeroLengthLine := by
  intro x y c s
  simp only [exec, execPlot, execDrawLine, checkLine_self, linePixels_self, fbPut_eq_fbPutAll]

end Sys2Proof.Machine
end

section
/-! The points of a line by their offsets along its two axes: how a line counts, starts and ends, the box it stays in, its
closed form and its exact cases (R91 to R96, R100). -/

namespace Sys2Proof.Machine

/-- The point `k` steps along a line's major axis and `q` along its minor axis, from the line's start towards its end. -/
def linePoint (x0 y0 x1 y1 : Nat) (k q : Int) : Int × Int :=
  if ((y1 : Int) - y0).natAbs ≤ ((x1 : Int) - x0).natAbs then
    ((x0 : Int) + ((x1 : Int) - x0).sign * k, (y0 : Int) + ((y1 : Int) - y0).sign * q)
  else ((x0 : Int) + ((x1 : Int) - x0).sign * q, (y0 : Int) + ((y1 : Int) - y0).sign * k)

theorem closedPixel_eq_linePoint (x0 y0 x1 y1 k : Nat) :
    closedPixel x0 y0 x1 y1 k =
      linePoint x0 y0 x1 y1 k (minorOffset (majorLength x0 y0 x1 y1) (minorLength x0 y0 x1 y1) k : Nat) := rfl

theorem minorLength_le_majorLength (x0 y0 x1 y1 : Nat) : minorLength x0 y0 x1 y1 ≤ majorLength x0 y0 x1 y1 :=
  min_le_max

/-- The walk back is as long as the walk. -/
theorem natAbs_sub_swap (a b : Int) : (a - b).natAbs = (b - a).natAbs := by
  rw [← neg_sub, Int.natAbs_neg]

theorem majorLength_swap (x0 y0 x1 y1 : Nat) : majorLength x1 y1 x0 y0 = majorLength x0 y0 x1 y1 := by
  simp only [majorLength, lineDeltas]
  rw [natAbs_sub_swap, natAbs_sub_swap (y0 : Int)]

theorem minorLength_swap (x0 y0 x1 y1 : Nat) : minorLength x1 y1 x0 y0 = minorLength x0 y0 x1 y1 := by
  simp only [minorLength, lineDeltas]
  rw [natAbs_sub_swap, natAbs_sub_swap (y0 : Int)]

theorem linePoint_zero (x0 y0 x1 y1 : Nat) : linePoint x0 y0 x1 y1 0 0 = ((x0 : Int), (y0 : Int)) := by
  simp [linePoint]

/-- A walk from `b` back to `a` is at `n` where the walk from `a` to `b` is at the rest of the way. -/
theorem walk_reverse (a b n : Int) : b + (a - b).sign * n = a + (b - a).sign * ((b - a).natAbs - n) := by
  rw [mul_sub, Int.sign_mul_natAbs, ← neg_sub b a, Int.sign_neg]
  ring

/-- The reversed line counts both its offsets back from the other end. -/
theorem linePoint_swap (x0 y0 x1 y1 : Nat) (k q : Int) :
    linePoint x1 y1 x0 y0 k q =
      linePoint x0 y0 x1 y1 (majorLength x0 y0 x1 y1 - k) (minorLength x0 y0 x1 y1 - q) := by
  simp only [linePoint, majorLength, minorLength, lineDeltas]
  rw [natAbs_sub_swap (y0 : Int), natAbs_sub_swap (x0 : Int)]
  split_ifs with h
  · rw [max_eq_left h, min_eq_right h, walk_reverse x0 x1, walk_reverse y0 y1]
  · rw [max_eq_right (not_le.1 h).le, min_eq_left (not_le.1 h).le, walk_reverse x0 x1, walk_reverse y0 y1]

/-- At the end of both axes stands the line's second endpoint. -/
theorem linePoint_last (x0 y0 x1 y1 : Nat) :
    linePoint x0 y0 x1 y1 (majorLength x0 y0 x1 y1) (minorLength x0 y0 x1 y1) = ((x1 : Int), (y1 : Int)) := by
  have hswap := linePoint_swap x0 y0 x1 y1 0 0
  rw [linePoint_zero, sub_zero, sub_zero] at hswap
  exact hswap.symm

/-- Two walks of a line of length above 0 that meet are equally long. -/
theorem walk_inj {a d : Int} (hd : 0 < d.natAbs) {n n' : Int} : a + d.sign * n = a + d.sign * n' ↔ n = n' := by
  have hsign : d.sign ≠ 0 := fun h => Int.natAbs_pos.1 hd (Int.sign_eq_zero_iff_zero.1 h)
  rw [add_right_inj, mul_right_inj' hsign]

theorem linePoint_major_inj {x0 y0 x1 y1 : Nat} (hM : 0 < majorLength x0 y0 x1 y1) {k k' q q' : Int}
    (h : linePoint x0 y0 x1 y1 k q = linePoint x0 y0 x1 y1 k' q') : k = k' := by
  simp only [linePoint] at h
  simp only [majorLength, lineDeltas] at hM
  split_ifs at h with hle
  · exact (walk_inj (hM.trans_le (max_eq_left hle).le)).1 (Prod.ext_iff.1 h).1
  · exact (walk_inj (hM.trans_le (max_eq_right (not_le.1 hle).le).le)).1 (Prod.ext_iff.1 h).2

theorem linePoint_minor_inj {x0 y0 x1 y1 : Nat} (hm : 0 < minorLength x0 y0 x1 y1) {k k' q q' : Int}
    (h : linePoint x0 y0 x1 y1 k q = linePoint x0 y0 x1 y1 k' q') : q = q' := by
  simp only [linePoint] at h
  obtain ⟨hx, hy⟩ := lt_min_iff.1 hm
  split_ifs at h
  · exact (walk_inj hy).1 (Prod.ext_iff.1 h).2
  · exact (walk_inj hx).1 (Prod.ext_iff.1 h).1

theorem closedPixel_zero (x0 y0 x1 y1 : Nat) : closedPixel x0 y0 x1 y1 0 = ((x0 : Int), (y0 : Int)) := by
  rw [closedPixel_eq_linePoint, minorOffset_zero]
  exact linePoint_zero x0 y0 x1 y1

/-- The last pixel of the closed form is the second endpoint (R93). -/
theorem closedPixel_last (x0 y0 x1 y1 : Nat) :
    closedPixel x0 y0 x1 y1 (majorLength x0 y0 x1 y1) = ((x1 : Int), (y1 : Int)) := by
  have hoff : minorOffset (majorLength x0 y0 x1 y1) (minorLength x0 y0 x1 y1) (majorLength x0 y0 x1 y1) =
      minorLength x0 y0 x1 y1 := by
    rcases Nat.eq_zero_or_pos (majorLength x0 y0 x1 y1) with hM | hM
    · rw [hM, minorOffset_zero]
      exact (Nat.le_zero.1 (hM ▸ minorLength_le_majorLength x0 y0 x1 y1)).symm
    · exact minorOffset_last hM
  rw [closedPixel_eq_linePoint, hoff, linePoint_last]

/-- Settles O45: R95's `M + 1` pixels have different offsets along the major axis. -/
theorem linePixelsAreCountedAndDistinct : Obligations.LinePixelsAreCountedAndDistinct := by
  intro x0 y0 x1 y1
  rw [linePixels_eq_map_closedPixel]
  refine ⟨by rw [List.length_map, List.length_range]; rfl, List.nodup_range.map_on fun k hk k' hk' h => ?_⟩
  rcases Nat.eq_zero_or_pos (majorLength x0 y0 x1 y1) with hM | hM
  · rw [List.mem_range] at hk hk'
    omega
  · exact_mod_cast linePoint_major_inj hM h

/-- Settles O46: the closed form at steps 0 and `M`. -/
theorem lineJoinsItsEndpoints : Obligations.LineJoinsItsEndpoints := by
  intro x0 y0 x1 y1
  rw [linePixels_eq_map_closedPixel]
  constructor
  · rw [List.head?_map, List.range_succ_eq_map, List.head?_cons, Option.map_some, closedPixel_zero]
  · rw [List.range_succ, List.map_append, List.map_singleton, List.getLast?_concat, closedPixel_last]

/-- Between legal endpoints a pixel is a cell of FB (R94). -/
theorem exists_cell_of_mem_linePixels {x0 y0 x1 y1 : Nat} (hx0 : x0 < Config.width) (hy0 : y0 < Config.height)
    (hx1 : x1 < Config.width) (hy1 : y1 < Config.height) {p : Int × Int} (hp : p ∈ linePixels x0 y0 x1 y1) :
    ∃ x y : Nat, x < Config.width ∧ y < Config.height ∧ p = ((x : Int), (y : Int)) := by
  obtain ⟨hx, hy⟩ := mem_uIcc_of_mem_linePixels hp
  obtain ⟨x, -, hxmax, hpx⟩ := mem_uIcc_natCast.1 hx
  obtain ⟨y, -, hymax, hpy⟩ := mem_uIcc_natCast.1 hy
  exact ⟨x, y, hxmax.trans_lt (max_lt hx0 hx1), hymax.trans_lt (max_lt hy0 hy1), Prod.ext hpx hpy⟩

/-- Settles O47: the box of the closed form, and its points as cells. -/
theorem lineStaysInItsBox : Obligations.LineStaysInItsBox := by
  intro x0 y0 x1 y1 p hp
  obtain ⟨⟨hxmin, hxmax⟩, hymin, hymax⟩ := mem_uIcc_of_mem_linePixels hp
  exact ⟨⟨hxmin, hxmax, hymin, hymax⟩, fun hx0 hx1 hy0 hy1 => exists_cell_of_mem_linePixels hx0 hy0 hx1 hy1 hp⟩

/-- Settles O48: the closed form, `M` and `m` read off the branch its pixels take. -/
theorem lineHasTheClosedForm : Obligations.LineHasTheClosedForm := by
  rintro x0 y0 x1 y1 _ _ _ _ rfl rfl rfl rfl
  rw [linePixels_eq_map_closedPixel]
  refine List.map_congr_left fun k _ => ?_
  simp only [closedPixel_eq_linePoint, linePoint, majorLength, minorLength, lineDeltas, minorOffset]
  split_ifs with h
  · rw [max_eq_left h, min_eq_right h]
  · rw [max_eq_right (not_le.1 h).le, min_eq_left (not_le.1 h).le]

/-- Settles O49: a straight line's pixels are the cells between its ends, and neither loop runs for a line of no length. -/
theorem straightLinesAreExact : Obligations.StraightLinesAreExact :=
  ⟨fun _ _ _ _ => mem_linePixels_horizontal.trans and_assoc, fun _ _ _ _ _ => mem_linePixels_vertical, linePixels_self⟩

/-- With equal deltas the minor axis keeps step with the major axis (R100). -/
theorem minorOffset_self {n : Nat} (hn : 0 < n) (k : Nat) : minorOffset n n k = k := by
  rw [minorOffset, Nat.add_mul_div_right _ _ hn, Nat.div_eq_of_lt (Nat.div_lt_self hn (by decide)), Nat.zero_add]

/-- Settles O52: the closed form, whose offsets along both axes are `k`. -/
theorem diagonalLinesAreExact : Obligations.DiagonalLinesAreExact := by
  intro x0 y0 x1 y1 m hx hy hm
  have hM : majorLength x0 y0 x1 y1 = m := by simp only [majorLength, lineDeltas, ← hx, ← hy, max_self]
  have hmin : minorLength x0 y0 x1 y1 = m := by simp only [minorLength, lineDeltas, ← hx, ← hy, min_self]
  rw [linePixels_eq_map_closedPixel, hM]
  refine List.map_congr_left fun k _ => ?_
  rw [closedPixel_eq_linePoint, hM, hmin, minorOffset_self hm, linePoint, if_pos (hy ▸ hx ▸ le_rfl)]

end Sys2Proof.Machine
end

section
/-! The offset along the minor axis is the nearest integer to its share of the minor delta, and the exact halves decide
whether the reversed line has the same pixels (R99, R101). -/

namespace Sys2Proof.Machine

/-- The minor offset is the one number that rounds `k*m/M` to the nearest integer, an exact half up (R101). -/
theorem minorOffset_eq_iff {M m k q : Nat} (hM : 0 < M) :
    minorOffset M m k = q ↔ 2 * (M * q) ≤ 2 * (k * m) + M ∧ 2 * (k * m) < 2 * (M * q) + M := by
  rw [minorOffset, Nat.div_eq_iff hM, mul_comm q M]
  omega

/-- Settles O53: the closed form's minor offset, and the next integer up where `k*m/M` is an exact half. -/
theorem lineRoundsToNearest : Obligations.LineRoundsToNearest := by
  rintro x0 y0 x1 y1 k M m rfl rfl hM hk
  obtain ⟨hlow, hhigh⟩ := (minorOffset_eq_iff hM).1 (rfl : minorOffset _ (minorLength x0 y0 x1 y1) k = _)
  refine ⟨_, ?_, by rwa [mul_assoc], by rwa [mul_assoc], fun n hhalf => ?_⟩
  · rw [linePixels_eq_map_closedPixel, List.getElem?_map, List.getElem?_range (Nat.lt_succ_of_le hk)]
    rfl
  · rw [mul_assoc] at hhalf
    exact ⟨by omega, (minorOffset_eq_iff hM).2 (by rw [Nat.mul_succ]; omega)⟩

/-- The offsets from both ends to one step meet, except at an exact half, which both round away from their start. -/
theorem minorOffset_reverse_iff {M m k : Nat} (hM : 0 < M) (hk : k ≤ M) :
    minorOffset M m (M - k) = m - minorOffset M m k ↔ 2 * (M * minorOffset M m k) ≠ 2 * (k * m) + M := by
  obtain ⟨hlow, hhigh⟩ := (minorOffset_eq_iff hM).1 (rfl : minorOffset M m k = _)
  have hoff : M * minorOffset M m k ≤ M * m := Nat.mul_le_mul_left M (minorOffset_le hk)
  have hshare : k * m ≤ M * m := Nat.mul_le_mul_right m hk
  rw [minorOffset_eq_iff hM, Nat.mul_sub, Nat.sub_mul]
  omega

/-- 2 divides the product of an odd number and a power of 2 as often as the power says. -/
theorem padicValNat_two_pow_mul_odd (a : Nat) {n : Nat} (hn : Odd n) : padicValNat 2 (2 ^ a * n) = a := by
  rw [padicValNat.mul (by positivity) hn.pos.ne', padicValNat.prime_pow,
    padicValNat.eq_zero_of_not_dvd hn.not_two_dvd_nat, Nat.add_zero]

/-- Some step lies at an exact half exactly when 2 divides the major delta more often than the minor delta. -/
theorem exists_half_iff {M m : Nat} (hM : 0 < M) (hm : 0 < m) :
    (∃ k ≤ M, 2 * (M * minorOffset M m k) = 2 * (k * m) + M) ↔ padicValNat 2 m < padicValNat 2 M := by
  obtain ⟨a, n, hn, rfl⟩ := Nat.exists_eq_two_pow_mul_odd hm.ne'
  rw [padicValNat_two_pow_mul_odd a hn, ← Nat.add_one_le_iff, ← padicValNat_dvd_iff_le hM.ne']
  constructor
  · rintro ⟨k, -, hhalf⟩
    -- `M` times an odd number is `2 * k * m`, so `2 * 2 ^ a` divides `M`.
    obtain ⟨j, hj⟩ := Nat.exists_eq_succ_of_ne_zero (n := minorOffset M (2 ^ a * n) k)
      (fun h => by rw [h] at hhalf; omega)
    have hprod : M * (2 * j + 1) = 2 ^ (a + 1) * (k * n) := by
      rw [hj, Nat.mul_succ] at hhalf
      have : M * (2 * j + 1) = 2 * (k * (2 ^ a * n)) := by rw [mul_add, mul_left_comm]; omega
      rw [this]; ring
    have hcop : Nat.Coprime (2 ^ (a + 1)) (2 * j + 1) :=
      Nat.Coprime.pow_left _ (Nat.coprime_two_left.2 (odd_two_mul_add_one j))
    exact hcop.dvd_of_dvd_mul_right ⟨_, hprod⟩
  · rintro ⟨k, rfl⟩
    obtain ⟨j, rfl⟩ := hn
    have hshare : 2 * (k * (2 ^ a * (2 * j + 1))) = 2 * (2 ^ (a + 1) * k * j) + 2 ^ (a + 1) * k := by ring
    have hoff : minorOffset (2 ^ (a + 1) * k) (2 ^ a * (2 * j + 1)) k = j + 1 :=
      (minorOffset_eq_iff hM).2 (by rw [hshare, mul_add]; omega)
    refine ⟨k, Nat.le_mul_of_pos_left k (by positivity), ?_⟩
    rw [hoff, hshare]
    ring

/-- The reversed line's pixels, counted from this line's start: every major step, with its minor offset from the other end. -/
theorem mem_linePixels_swap {x0 y0 x1 y1 : Nat} {p : Int × Int} :
    p ∈ linePixels x1 y1 x0 y0 ↔ ∃ k ≤ majorLength x0 y0 x1 y1, linePoint x0 y0 x1 y1 k
      ((minorLength x0 y0 x1 y1 : Int) -
        minorOffset (majorLength x0 y0 x1 y1) (minorLength x0 y0 x1 y1) (majorLength x0 y0 x1 y1 - k) : Int) = p := by
  simp only [mem_linePixels_iff_closedPixel, closedPixel_eq_linePoint, linePoint_swap x0 y0 x1 y1, majorLength_swap,
    minorLength_swap]
  constructor
  · rintro ⟨k, hk, rfl⟩
    exact ⟨_, Nat.sub_le _ k, by rw [Nat.sub_sub_self hk, Nat.cast_sub hk]⟩
  · rintro ⟨k, hk, rfl⟩
    exact ⟨_, Nat.sub_le _ k, by rw [Nat.cast_sub hk, sub_sub_cancel]⟩

/-- A line and its reverse have the same pixels exactly when at every major step their minor offsets meet (R99). -/
theorem linePixels_swap_iff (x0 y0 x1 y1 : Nat) :
    (∀ p : Int × Int, p ∈ linePixels x0 y0 x1 y1 ↔ p ∈ linePixels x1 y1 x0 y0) ↔
      ∀ k ≤ majorLength x0 y0 x1 y1,
        minorOffset (majorLength x0 y0 x1 y1) (minorLength x0 y0 x1 y1) (majorLength x0 y0 x1 y1 - k) =
          minorLength x0 y0 x1 y1 - minorOffset (majorLength x0 y0 x1 y1) (minorLength x0 y0 x1 y1) k := by
  simp only [mem_linePixels_iff_closedPixel (x0 := x0), mem_linePixels_swap (x0 := x0), closedPixel_eq_linePoint]
  constructor
  · intro hsame k hk
    rcases Nat.eq_zero_or_pos (minorLength x0 y0 x1 y1) with hm | hm
    · have hzero := minorOffset_le (minor := minorLength x0 y0 x1 y1) (Nat.sub_le (majorLength x0 y0 x1 y1) k)
      omega
    · obtain ⟨j, -, hmeet⟩ := (hsame _).1 ⟨k, hk, rfl⟩
      obtain rfl : j = k := by
        exact_mod_cast linePoint_major_inj (hm.trans_le (minorLength_le_majorLength x0 y0 x1 y1)) hmeet
      have hoff := linePoint_minor_inj hm hmeet
      omega
  · intro hmeet p
    refine exists_congr fun k => and_congr_right fun hk => ?_
    rw [hmeet k hk, Nat.cast_sub (minorOffset_le hk), sub_sub_cancel]

/-- Settles O51: the minor offsets from both ends meet except at an exact half, which a step meets exactly when 2 divides
`M` more often than `m`. -/
theorem swapSymmetryCriterion : Obligations.SwapSymmetryCriterion := by
  intro x0 y0 x1 y1
  rw [linePixels_swap_iff]
  have hle := minorLength_le_majorLength x0 y0 x1 y1
  generalize majorLength x0 y0 x1 y1 = M at *
  generalize minorLength x0 y0 x1 y1 = m at *
  rcases Nat.eq_zero_or_pos m with rfl | hm
  · have hzero : ∀ k ≤ M, minorOffset M 0 k = 0 := fun k hk => Nat.le_zero.1 (minorOffset_le hk)
    exact iff_of_true (fun k hk => by rw [hzero _ (Nat.sub_le M k), hzero k hk]) (.inl rfl)
  · have hM := hm.trans_le hle
    calc (∀ k ≤ M, minorOffset M m (M - k) = m - minorOffset M m k)
        ↔ ¬ ∃ k ≤ M, 2 * (M * minorOffset M m k) = 2 * (k * m) + M := by
          push Not
          exact forall₂_congr fun k hk => minorOffset_reverse_iff hM hk
      _ ↔ padicValNat 2 M ≤ padicValNat 2 m := by rw [exists_half_iff hM hm, not_lt]
      _ ↔ m = 0 ∨ padicValNat 2 M ≤ padicValNat 2 m := (or_iff_right hm.ne').symm

end Sys2Proof.Machine
end

section
/-! R90's loops iteration by iteration: what each one does to the working values, and how far the accumulator goes (R90,
R102). -/

namespace Sys2Proof.Machine

/-- One iteration of the branch R90 takes. -/
def stepLine (d : Deltas) : Raster → Raster := if d.dyabs ≤ d.dxabs then stepHorizontal d else stepVertical d

theorem stepLine_of_le {d : Deltas} (h : d.dyabs ≤ d.dxabs) : stepLine d = stepHorizontal d := if_pos h

theorem stepLine_of_lt {d : Deltas} (h : d.dxabs < d.dyabs) : stepLine d = stepVertical d := if_neg (not_le.2 h)

/-- A run's working values are the iterates of its step. -/
theorem rasterRun_eq_map_iterate (f : Raster → Raster) (n : Nat) (r : Raster) :
    r :: rasterRun f n r = (List.range (n + 1)).map fun k => f^[k] r := by
  have hrun := rasterRun_eq_map f (fun k => f^[k] r) n 0 fun k _ _ => (Function.iterate_succ_apply' f k r).symm
  rw [List.range_eq_range', List.range'_succ, List.map_cons, Function.iterate_zero_apply]
  exact congrArg (r :: ·) hrun

/-- The working values of a line after `k` iterations of the branch taken, from R90's step 2 on. -/
def rasterAt (x0 y0 x1 y1 k : Nat) : Raster :=
  (stepLine (lineDeltas x0 y0 x1 y1))^[k] (rasterStart x0 y0 (lineDeltas x0 y0 x1 y1))

theorem rasterAt_succ (x0 y0 x1 y1 k : Nat) :
    rasterAt x0 y0 x1 y1 (k + 1) = stepLine (lineDeltas x0 y0 x1 y1) (rasterAt x0 y0 x1 y1 k) :=
  Function.iterate_succ_apply' _ k _

/-- The working values at the writes of a line, one iteration after the other (R90). -/
theorem lineRasters_eq_map_rasterAt (x0 y0 x1 y1 : Nat) :
    lineRasters x0 y0 x1 y1 = (List.range (majorLength x0 y0 x1 y1 + 1)).map (rasterAt x0 y0 x1 y1) := by
  unfold lineRasters majorLength rasterAt
  dsimp only
  split_ifs with h
  · rw [rasterRun_eq_map_iterate, max_eq_left h, stepLine_of_le h]
  · rw [rasterRun_eq_map_iterate, max_eq_right (not_le.1 h).le, stepLine_of_lt (not_le.1 h)]

/-- A horizontal iteration as step 4 of R90 words it: x always moves, y only when the accumulator reaches the delta. -/
theorem stepHorizontal_moves (d : Deltas) (r : Raster) :
    (stepHorizontal d r).px = r.px + d.sdx ∧
      if (d.dxabs : Int) ≤ r.ey + d.dyabs then
        (stepHorizontal d r).ey = r.ey + d.dyabs - d.dxabs ∧ (stepHorizontal d r).py = r.py + d.sdy
      else (stepHorizontal d r).ey = r.ey + d.dyabs ∧ (stepHorizontal d r).py = r.py := by
  split_ifs with h
  · rw [stepHorizontal_of_le h]
    exact ⟨rfl, rfl, rfl⟩
  · rw [stepHorizontal_of_lt (not_le.1 h)]
    exact ⟨rfl, rfl, rfl⟩

/-- A vertical iteration as step 5 of R90 words it: y always moves, x only when the accumulator reaches the delta. -/
theorem stepVertical_moves (d : Deltas) (r : Raster) :
    (stepVertical d r).py = r.py + d.sdy ∧
      if (d.dyabs : Int) ≤ r.ex + d.dxabs then
        (stepVertical d r).ex = r.ex + d.dxabs - d.dyabs ∧ (stepVertical d r).px = r.px + d.sdx
      else (stepVertical d r).ex = r.ex + d.dxabs ∧ (stepVertical d r).px = r.px := by
  split_ifs with h
  · rw [stepVertical_of_le h]
    exact ⟨rfl, rfl, rfl⟩
  · rw [stepVertical_of_lt (not_le.1 h)]
    exact ⟨rfl, rfl, rfl⟩

/-- Settles O54: the accumulator is a remainder by the major delta, and the other delta is no longer. -/
theorem accumulatorStaysBelowMajor : Obligations.AccumulatorStaysBelowMajor := by
  rintro x0 y0 x1 y1 _ _ rfl rfl
  refine ⟨fun r hr => ⟨fun hle hpos => ?_, fun hlt => ?_⟩, fun hx0 hx1 hy0 hy1 => ?_⟩
  · rw [lineRasters_of_le hle, List.mem_map] at hr
    obtain ⟨k, -, rfl⟩ := hr
    have hmod := Nat.mod_lt ((lineDeltas x0 y0 x1 y1).dxabs / 2 + k * (lineDeltas x0 y0 x1 y1).dyabs) hpos
    simp only [rasterAtH, lineDeltas] at hmod ⊢
    omega
  · rw [lineRasters_of_lt hlt, List.mem_map] at hr
    obtain ⟨k, -, rfl⟩ := hr
    have hmod := Nat.mod_lt ((lineDeltas x0 y0 x1 y1).dyabs / 2 + k * (lineDeltas x0 y0 x1 y1).dxabs)
      (Nat.zero_lt_of_lt hlt)
    simp only [rasterAtV, lineDeltas] at hmod ⊢
    omega
  · rw [Config.width] at hx0 hx1
    rw [Config.height] at hy0 hy1
    omega

end Sys2Proof.Machine
end

section
/-! DRAW_LINE: the words of its row in order of checks, the cells it writes, and a line drawn over another (R90, R97, R98). -/

namespace Sys2Proof.Machine

theorem checkLine_eq_ite (x0 y0 x1 y1 c : Nat) :
    checkLine x0 y0 x1 y1 c =
      if Config.width ≤ x0 then some .cvX else if Config.height ≤ y0 then some .cvY
      else if Config.width ≤ x1 then some .cvX else if Config.height ≤ y1 then some .cvY
      else if 15 < c then some .cvColor else none := by
  rw [checkLine, ← checkPointColor, checkPoint_eq_ite, checkPointColor_eq_ite]
  split_ifs <;> rfl

/-- DRAW_LINE on a running block (R90). -/
theorem exec_drawLine_eq_ite {s : State} (hrun : s.status.halted = false) (x0 y0 x1 y1 c : Nat) :
    exec (.drawLine x0 y0 x1 y1 c) s =
      if Config.width ≤ x0 then .next (raiseFault .cvX s)
      else if Config.height ≤ y0 then .next (raiseFault .cvY s)
      else if Config.width ≤ x1 then .next (raiseFault .cvX s)
      else if Config.height ≤ y1 then .next (raiseFault .cvY s)
      else if 15 < c then .next (raiseFault .cvColor s)
      else .next (respond .none 0#16 (setFb (fbPutAll (linePixels x0 y0 x1 y1) (BitVec.ofNat 8 c) s.fb) s)) := by
  have hcheck := checkLine_eq_ite x0 y0 x1 y1 c
  rw [exec, execDrawLine]
  split_ifs at hcheck ⊢
  · exact serve_fault hrun hcheck
  · exact serve_fault hrun hcheck
  · exact serve_fault hrun hcheck
  · exact serve_fault hrun hcheck
  · exact serve_fault hrun hcheck
  · exact serve_run hrun hcheck

/-- Settles O11: the word's opcode leaves DRAW_LINE's row alone, a running block goes through its checks in order, and the
working values are those of the branch taken, iterated. -/
theorem drawLineWordFollowsItsRule : Obligations.DrawLineWordFollowsItsRule := by
  refine ⟨fun w s hop => ?_, ?_⟩
  · have hcolor : BitVec.ofNat 8 (fieldC w) = w.extractLsb' 38 8 := by
      rw [fieldC, BitVec.ofNat_toNat, BitVec.setWidth_eq]
    rw [commandMove_of_fieldOp (op := .drawLine) s hop (by decide)]
    cases hrun : s.status.halted with
    | true => rfl
    | false =>
      rw [operandsOf, exec_drawLine_eq_ite hrun, hcolor]
      rfl
  · rintro x0 y0 x1 y1 dxabs dyabs _ _ rfl rfl hdx hdy
    obtain rfl : dxabs = (lineDeltas x0 y0 x1 y1).dxabs := Int.ofNat.inj (hdx.trans (Int.abs_eq_natAbs _))
    obtain rfl : dyabs = (lineDeltas x0 y0 x1 y1).dyabs := Int.ofNat.inj (hdy.trans (Int.abs_eq_natAbs _))
    refine ⟨fun k => (rasterAt x0 y0 x1 y1 k).ex, fun k => (rasterAt x0 y0 x1 y1 k).ey,
      fun k => (rasterAt x0 y0 x1 y1 k).px, fun k => (rasterAt x0 y0 x1 y1 k).py, rfl, rfl, rfl, rfl, ?_,
      fun hle k _ => ?_, fun hlt k _ => ?_⟩
    · rw [linePixels, lineRasters_eq_map_rasterAt, List.map_map, majorLength, max_def']
      rfl
    · dsimp only
      rw [rasterAt_succ, stepLine_of_le hle]
      exact stepHorizontal_moves _ _
    · dsimp only
      rw [rasterAt_succ, stepLine_of_lt hlt]
      exact stepVertical_moves _ _

/-- DRAW_LINE leaves a running block running only on legal operands, and then it has written its pixels (R90). -/
theorem exec_drawLine_running {x0 y0 x1 y1 c : Nat} {s t : State} (h : exec (.drawLine x0 y0 x1 y1 c) s = .next t)
    (ht : t.status.halted = false) :
    t = respond .none 0#16 (setFb (fbPutAll (linePixels x0 y0 x1 y1) (BitVec.ofNat 8 c) s.fb) s) := by
  simp only [exec, execDrawLine] at h
  rcases serve_cases h with ⟨hhalted, rfl⟩ | ⟨-, c, -, rfl⟩ | ⟨-, -, heffect⟩
  · exact absurd (ht.symm.trans hhalted) (by decide)
  · exact absurd ht (by simp)
  · exact (Host.Outcome.next.inj heffect).symm

/-- A cell of FB after its line is drawn holds the line's colour. -/
theorem fbByte_fbPutAll_of_mem {ps : List (Int × Int)} {x y : Nat} (hp : ((x : Int), (y : Int)) ∈ ps) (v : Byte)
    (m : Memory) : fbByte (fbOff x y) (fbPutAll ps v m) = v := by
  rw [fbByte_fbPutAll, if_pos ⟨_, hp, rfl⟩]

/-- Settles O18: the pixels written are the closed form's, each of them a cell of FB. -/
theorem drawLineCompletes : Obligations.DrawLineCompletes := by
  intro x0 y0 x1 y1 c s hrun hx0 hy0 hx1 hy1 hc
  have hcell := fun p hp => exists_cell_of_mem_linePixels hx0 hy0 hx1 hy1 (p := p) hp
  refine ⟨_, exec_drawLine_completes hrun hx0 hy0 hx1 hy1 hc, fun k hk => ?_, fun a ha => ?_, rfl, rfl, rfl, rfl, rfl⟩
  · have hp := mem_linePixels_iff_closedPixel.2 ⟨k, hk, rfl⟩
    obtain ⟨x, y, hx, hy, hxy⟩ := hcell _ hp
    exact ⟨x, y, hx, hy, hxy, fbByte_fbPutAll_of_mem (hxy ▸ hp) _ _⟩
  · rw [respond_fb, setFb_fb, memRead_fb, memRead_fb, fbByte_fbPutAll, if_neg]
    rintro ⟨p, hp, rfl⟩
    obtain ⟨x, y, -, -, rfl⟩ := hcell p hp
    obtain ⟨k, hk, hxy⟩ := mem_linePixels_iff_closedPixel.1 hp
    exact ha k hk x y hxy rfl

/-- Settles O50: a write issued again leaves the block as it was, and a completed line's pixels hold its colour, whatever
stood there. -/
theorem laterLineWins : Obligations.LaterLineWins := by
  refine ⟨fun x0 y0 x1 y1 c s t u hs ht hu => ?_, fun a0 b0 a1 b1 d x0 y0 x1 y1 c s t u _ hu hrun x y _ hp => ?_⟩
  · obtain ⟨u', hu', hsame⟩ := exec_write_again hs (.inr (.inl ⟨x0, y0, x1, y1, c, rfl⟩)) ht
    obtain rfl := Host.Outcome.next.inj (hu.symm.trans hu')
    exact hsame
  · rw [exec_drawLine_running hu hrun]
    exact fbByte_fbPutAll_of_mem hp _ _

end Sys2Proof.Machine
end

section
/-! CONVERT's answers: what RGB holds at each cell's three bytes afterwards, and where it faults (R111, R113, R115, R116). -/

namespace Sys2Proof.Machine

/-- What holds at the offset of every pixel holds at every offset below 64000 (R40). -/
theorem forall_cells_of_forall_pixels {P : Nat → Prop} (h : ∀ x y, x < Config.width → y < Config.height → P (fbOff x y))
    {o : Nat} (ho : o < Config.ncells) : P o :=
  fbOff_mod_div o ▸ h _ _ (Nat.mod_lt o (by decide)) (Nat.div_lt_of_lt_mul ho)

/-- RGB after a CONVERT, by cell and component (R113). -/
theorem memRead_conv_cell {o j : Nat} (fb : Memory) (ho : o < Config.ncells) (hj : j < 3) :
    memRead .rgb (3 * o + j) (conv fb) = some (tripleByte (pal (BitVec.ofNat 4 (fbByte o fb).toNat)) j) :=
  forall_cells_of_forall_pixels
    (P := fun o => memRead .rgb (3 * o + j) (conv fb) = some (tripleByte (pal (BitVec.ofNat 4 (fbByte o fb).toNat)) j))
    (fun _ _ hx hy => memRead_conv_pixel fb hx hy hj) ho

/-- `pal` is the row of PALETTE (R110). -/
theorem pal_ofNat (i : Fin 16) : pal (BitVec.ofNat 4 i.val) = Config.palette[i] := by
  revert i
  decide

/-- CONVERT raises CV_INDEX on a running block with a cell above 15 (R111). -/
theorem exec_convert_faults {s : State} (hrun : s.status.halted = false)
    (hcell : ∃ o, o < Config.ncells ∧ 15 < (fbByte o s.fb).toNat) : exec .convert s = .next (raiseFault .cvIndex s) := by
  obtain ⟨o, ho, hbig⟩ := hcell
  cases hcheck : checkIndices s.fb with
  | none => exact absurd (checkIndices_eq_none.1 hcheck o ho) (Nat.not_le_of_lt hbig)
  | some c =>
    obtain ⟨-, rfl⟩ := require_eq_some.1 hcheck
    rw [exec, execConvert, serve_fault hrun hcheck]

/-- CONVERT leaves a running block running only past its check, and then RGB is `conv` of FB (R111). -/
theorem exec_convert_running {s t : State} (h : exec .convert s = .next t) (ht : t.status.halted = false) :
    s.status.halted = false ∧ (∀ o, o < Config.ncells → (fbByte o s.fb).toNat ≤ Config.indexMax) ∧ t.fb = s.fb ∧
      t.rgb = conv s.fb := by
  simp only [exec, execConvert] at h
  rcases serve_cases h with ⟨hhalted, rfl⟩ | ⟨-, c, -, rfl⟩ | ⟨hrun, hcheck, heffect⟩
  · exact absurd (ht.symm.trans hhalted) (by decide)
  · exact absurd ht (by simp)
  · cases heffect
    exact ⟨hrun, checkIndices_eq_none.1 hcheck, rfl, rfl⟩

/-- A word of CONVERT's opcode (R111, R145): HALTED, else ILLEGAL_COMMAND unless it is the row's one word, else CONVERT. -/
theorem commandMove_of_fieldOp_convert {w : CmdWord} (s : State) (hop : fieldOp w = 4#4) :
    commandMove w s =
      if s.status.halted = true then .next (respond .halted 0#16 s)
      else if w ≠ 0x4#64 then .next (raiseFault .illegalCommand s)
      else exec .convert s := by
  have hmask : w &&& (rowFor .convert).mask = w := BitVec.and_allOnes
  rw [commandMove_of_fieldOp (op := .convert) s hop (by decide), hmask]
  rfl

/-- Settles O12: the word's opcode leaves CONVERT's row alone, whose one word is 0x4, and a running block's cells decide
between the fault and `conv` of FB. -/
theorem convertWordFollowsItsRule : Obligations.ConvertWordFollowsItsRule := by
  intro w s hop
  rw [commandMove_of_fieldOp_convert s hop]
  refine ⟨fun hhalted => if_pos hhalted, fun hrun hne => ?_, fun hrun heq hcell => ?_, fun hrun heq hcells => ?_⟩
  · rw [if_neg (by simp [hrun]), if_pos hne]
  · rw [if_neg (by simp [hrun]), if_neg (not_not.2 heq)]
    exact exec_convert_faults hrun hcell
  · rw [if_neg (by simp [hrun]), if_neg (not_not.2 heq)]
    refine ⟨conv s.fb, exec_convert_completes hrun hcells, fun o i ho hi => ?_⟩
    have hbyte : ∀ j, j < 3 → memRead .rgb (3 * o + j) (conv s.fb) = some (tripleByte (Config.palette[i]) j) :=
      fun j hj => by rw [memRead_conv_cell s.fb ho hj, hi, pal_ofNat]
    exact ⟨hbyte 0 (by decide), hbyte 1 (by decide), hbyte 2 (by decide)⟩

/-- Settles O19: CONVERT's one write of RGB and STATUS, RGB read back byte by byte. -/
theorem convertCompletes : Obligations.ConvertCompletes := by
  intro s hrun hcells
  refine ⟨_, exec_convert_completes hrun hcells, fun x y j hx hy hj => memRead_conv_pixel s.fb hx hy hj,
    fun i hi => ?_, rfl, rfl, rfl, rfl, rfl⟩
  exact (memRead_conv s.fb i).trans (if_neg (Nat.not_lt_of_le hi))

/-- Settles O58: every cell is the one index, so every pixel reads that index's triple. -/
theorem uniformFillConverts : Obligations.UniformFillConverts := by
  intro s i hrun hi hfill
  have hindex : (BitVec.ofNat 8 i).toNat = i := by
    rw [BitVec.toNat_ofNat]
    omega
  have hpixel : ∀ x y, x < Config.width → y < Config.height → (fbByte (fbOff x y) s.fb).toNat = i :=
    fun x y hx hy => (congrArg BitVec.toNat (hfill x y hx hy)).trans hindex
  have hcells : ∀ o, o < Config.ncells → (fbByte o s.fb).toNat ≤ Config.indexMax :=
    fun o ho => (forall_cells_of_forall_pixels (P := fun o => (fbByte o s.fb).toNat = i) hpixel ho).trans_le hi
  refine ⟨_, exec_convert_completes hrun hcells, fun x y hx hy => ?_⟩
  have hbyte : ∀ j, j < 3 → memRead .rgb (3 * fbOff x y + j) (conv s.fb) = some (tripleByte (pal (BitVec.ofNat 4 i)) j) :=
    fun j hj => by rw [memRead_conv_pixel s.fb hx hy hj, hpixel x y hx hy]
  exact ⟨hbyte 0 (by decide), hbyte 1 (by decide), hbyte 2 (by decide)⟩

/-- No two rows of PALETTE are the same (R116). -/
theorem pal_injective : ∀ i j : BitVec 4, pal i = pal j → i = j := by decide

/-- A triple is its three components. -/
theorem triple_ext_of_tripleByte {a b : Config.Triple} (h : ∀ j, j < 3 → tripleByte a j = tripleByte b j) : a = b := by
  have hr := h 0 (by decide)
  have hg := h 1 (by decide)
  have hb := h 2 (by decide)
  cases a
  cases b
  rw [Config.Triple.mk.injEq]
  exact ⟨hr, hg, hb⟩

/-- A palette index is its low four bits (R21). -/
theorem byte_eq_of_index_eq {u v : Byte} (hu : u.toNat ≤ Config.indexMax) (hv : v.toNat ≤ Config.indexMax)
    (h : BitVec.ofNat 4 u.toNat = BitVec.ofNat 4 v.toNat) : u = v := by
  have hmod := congrArg BitVec.toNat h
  rw [BitVec.toNat_ofNat, BitVec.toNat_ofNat] at hmod
  rw [Config.indexMax] at hu hv
  exact BitVec.eq_of_toNat_eq (by omega)

/-- Settles O59: equal bytes are equal triples, `pal` is injective, and both cells passed CONVERT's check. -/
theorem indicesAreRecoverable : Obligations.IndicesAreRecoverable := by
  refine ⟨pal_injective, fun s t s' t' x y hs ht hs' ht' hx hy hbytes => ?_⟩
  obtain ⟨-, hcells, -, hrgb⟩ := exec_convert_running hs ht
  obtain ⟨-, hcells', -, hrgb'⟩ := exec_convert_running hs' ht'
  have hoff := fbOff_lt hx hy
  refine byte_eq_of_index_eq (hcells _ hoff) (hcells' _ hoff)
    (pal_injective _ _ (triple_ext_of_tripleByte fun j hj => ?_))
  have hbyte := hbytes j hj
  rw [rgbRead, rgbRead, hrgb, hrgb'] at hbyte
  exact Option.some.inj
    ((memRead_conv_pixel s.fb hx hy hj).symm.trans (hbyte.trans (memRead_conv_pixel s'.fb hx hy hj)))

end Sys2Proof.Machine
end

section
/-! READ_RGB: the words of its row in order of checks, and the byte it reports (R112). -/

namespace Sys2Proof.Machine

/-- READ_RGB on a running block (R112); the byte it reports counts only where both checks pass. -/
theorem exec_readRgb_eq_ite {off : Nat} {s : State} {v : Byte} (hrun : s.status.halted = false)
    (hv : s.status.rgbValid = true → off < Config.nrgb → rgbRead off s = some v) :
    exec (.readRgb off) s =
      if Config.nrgb ≤ off then .next (raiseFault .rgbRange s)
      else if s.status.rgbValid = false then .next (raiseFault .rgbInvalid s)
      else .next (respond .none (v.setWidth 16) s) := by
  split_ifs with hrange hinvalid
  · have hcheck : (checkOff off).or (checkValid s.status) = some .rgbRange := by
      rw [checkOff, require, decide_eq_false (Nat.not_lt_of_le hrange)]
      rfl
    rw [exec, execReadRgb, serve_fault hrun hcheck]
  · have hcheck : (checkOff off).or (checkValid s.status) = some .rgbInvalid := by
      rw [checkOff_eq_none.2 (Nat.lt_of_not_le hrange), checkValid, hinvalid]
      rfl
    rw [exec, execReadRgb, serve_fault hrun hcheck]
  · have hoff := Nat.lt_of_not_le hrange
    have hvalid := Bool.eq_true_of_not_eq_false hinvalid
    exact exec_readRgb_completes hrun hoff hvalid (hv hvalid hoff)

/-- Where the invariant holds and a CONVERT has completed, every byte of RGB has a value (R23). -/
theorem exists_memRead_of_inv {s : State} {off : Nat} (hinv : s.Inv) (hvalid : s.status.rgbValid = true)
    (hoff : off < Config.nrgb) : ∃ v, memRead .rgb off s.rgb = some v := by
  obtain ⟨-, ⟨-, hfull, -⟩, -, -⟩ := hinv
  exact Option.isSome_iff_exists.1 (hfull hvalid off hoff)

/-- Settles O13: the word's opcode leaves READ_RGB's row alone, a running block goes through its checks in order, and the
invariant gives the byte its value. -/
theorem readRgbWordFollowsItsRule : Obligations.ReadRgbWordFollowsItsRule := by
  refine ⟨fun w s v hop hv => ?_, fun s off hinv hvalid hoff => exists_memRead_of_inv hinv hvalid hoff⟩
  rw [commandMove_of_fieldOp (op := .readRgb) s hop (by decide)]
  cases hrun : s.status.halted with
  | true => rfl
  | false =>
    rw [operandsOf, exec_readRgb_eq_ite (off := fieldOff w) hrun hv]
    rfl

/-- Settles O20: READ_RGB's one response, as a number. -/
theorem readRgbCompletes : Obligations.ReadRgbCompletes := by
  intro off s hinv hrun hvalid hoff
  obtain ⟨v, hv⟩ := exists_memRead_of_inv hinv hvalid hoff
  refine ⟨v, hv, ?_⟩
  rw [exec_readRgb_completes hrun hoff hvalid hv, respond, respWord_none_byte]

end Sys2Proof.Machine
end

section
/-! Which check raises a command's fault: CV_INDEX is CONVERT's alone (R111, R145). -/

namespace Sys2Proof.Machine

/-- The check each command makes of its operands and of the state before it runs (R145). -/
def checkOf : Instr → State → Option Cause
  | .plot x y c, _ => checkPointColor x y c
  | .readPixel x y, _ => checkPoint x y
  | .drawLine x0 y0 x1 y1 c, _ => checkLine x0 y0 x1 y1 c
  | .convert, s => checkIndices s.fb
  | .readRgb off, s => (checkOff off).or (checkValid s.status)
  | .readStatus, _ => none

/-- After `serve`, FIRST_CAUSE is the cause of the check that failed, unless what ran after the checks set it. -/
theorem serve_firstCause {check : State → Option Cause} {run : State → Result} {s t : State}
    (h : serve check run s = .next t) (hrun : run s = .next t → t.status.firstCause = s.status.firstCause) :
    t.status.firstCause = s.status.firstCause ∨ check s = some t.status.firstCause := by
  rcases serve_cases h with ⟨-, rfl⟩ | ⟨-, c, hcheck, rfl⟩ | ⟨-, -, heffect⟩
  · exact .inl rfl
  · exact .inr hcheck
  · exact .inl (hrun heffect)

/-- A command sets FIRST_CAUSE only to the cause of its check that failed (R143). -/
theorem exec_firstCause {i : Instr} {s t : State} (h : exec i s = .next t) :
    t.status.firstCause = s.status.firstCause ∨ checkOf i s = some t.status.firstCause := by
  cases i with
  | plot x y c =>
    simp only [exec, execPlot] at h
    exact (serve_firstCause h fun heffect => by cases heffect; rfl :)
  | readPixel x y =>
    simp only [exec, execReadPixel] at h
    exact (serve_firstCause h fun heffect => by cases heffect; rfl :)
  | drawLine x0 y0 x1 y1 c =>
    simp only [exec, execDrawLine] at h
    exact (serve_firstCause h fun heffect => by cases heffect; rfl :)
  | convert =>
    simp only [exec, execConvert] at h
    exact (serve_firstCause h fun heffect => by cases heffect; rfl :)
  | readRgb off =>
    simp only [exec, execReadRgb] at h
    refine (serve_firstCause h fun heffect => ?_ :)
    cases hv : rgbRead off s with
    | none => simp [hv] at heffect
    | some v =>
      simp only [hv] at heffect
      cases heffect
      rfl
  | readStatus =>
    cases h
    exact .inl rfl

/-- CV_INDEX comes from CONVERT's check alone. -/
theorem eq_convert_of_checkOf_eq_cvIndex {i : Instr} {s : State} (h : checkOf i s = some .cvIndex) : i = .convert := by
  cases i with
  | plot x y c => exact absurd h (by rw [checkOf, checkPointColor_eq_ite]; split_ifs <;> decide)
  | readPixel x y => exact absurd h (by rw [checkOf, checkPoint_eq_ite]; split_ifs <;> decide)
  | drawLine x0 y0 x1 y1 c => exact absurd h (by rw [checkOf, checkLine_eq_ite]; split_ifs <;> decide)
  | convert => rfl
  | readRgb off => simp [checkOf, checkOff, checkValid, require_eq_some] at h
  | readStatus => exact absurd h (by simp [checkOf])

/-- Settles O35: only a CONVERT's check raises CV_INDEX, and under the invariant it passes. -/
theorem cvIndexIsNeverRaised : Obligations.CvIndexIsNeverRaised := by
  intro w s t hinv h hcause
  rcases commandMove_cases h with ⟨i, -, hexec⟩ | ⟨e, -, ⟨-, rfl⟩ | ⟨-, rfl⟩⟩
  · rcases exec_firstCause hexec with hsame | hcheck
    · rw [← hsame, hcause]
    · rw [hcause] at hcheck
      obtain rfl := eq_convert_of_checkOf_eq_cvIndex hcheck
      obtain ⟨hfb, -, -, -⟩ := hinv
      have hpass : checkOf .convert s = none := checkIndices_eq_none.2 fun o _ => fbByte_le_of_fbOk hfb o
      exact absurd (hcheck.symm.trans hpass) (by simp)
  · exact hcause
  · exact absurd hcause (by simp)

end Sys2Proof.Machine
end

section
/-! RGB after a CONVERT: what the pseudocode's writes leave, and the same bytes as long as nothing is drawn (R111, R114). -/

namespace Sys2Proof.Machine

/-! ## CONVERT's writes -/

/-- The three writes of R111's second loop for the cell at offset `o`. -/
def writeTriple (fb : Memory) (m : Memory) (o : Nat) : Memory :=
  memWrite .rgb (3 * o + 2) (pal (BitVec.ofNat 4 (fbByte o fb).toNat)).b
    (memWrite .rgb (3 * o + 1) (pal (BitVec.ofNat 4 (fbByte o fb).toNat)).g
      (memWrite .rgb (3 * o) (pal (BitVec.ofNat 4 (fbByte o fb).toNat)).r m))

theorem writeTriple_wf {fb m : Memory} {o : Nat} (hm : Memory.wf .rgb m) (ho : o < Config.ncells) :
    Memory.wf .rgb (writeTriple fb m o) := by
  have hsize : 3 * o + 2 < spaceSize .rgb := by
    simp only [spaceSize, Config.nrgb, Config.bytesPerPixel]
    omega
  exact memWrite_wf (memWrite_wf (memWrite_wf hm (by omega)) (by omega)) hsize

/-- The bytes of cell `o` are those at offsets `3*o`, `3*o + 1`, `3*o + 2`; the others stay. -/
theorem memRead_writeTriple (fb m : Memory) (o i : Nat) :
    memRead .rgb i (writeTriple fb m o) =
      if i / 3 = o then some (tripleByte (pal (cellIndex (fbByte o fb))) (i % 3)) else memRead .rgb i m := by
  simp only [writeTriple, memRead_memWrite, cellIndex, BitVec.ofNat_toNat]
  by_cases hcell : i / 3 = o
  · rw [if_pos hcell]
    obtain hi | hi | hi : i = 3 * o ∨ i = 3 * o + 1 ∨ i = 3 * o + 2 := by omega
    · have hcomp : i % 3 = 0 := by omega
      rw [if_neg (by omega), if_neg (by omega), if_pos hi, hcomp]
      rfl
    · have hcomp : i % 3 = 1 := by omega
      rw [if_neg (by omega), if_pos hi, hcomp]
      rfl
    · have hcomp : i % 3 = 2 := by omega
      rw [if_pos hi, hcomp]
      rfl
  · rw [if_neg hcell, if_neg (by omega), if_neg (by omega), if_neg (by omega)]

/-- The writes for the first `n` cells, in order. -/
def writeCells (fb m : Memory) (n : Nat) : Memory := (List.range n).foldl (writeTriple fb) m

theorem writeCells_succ (fb m : Memory) (n : Nat) :
    writeCells fb m (n + 1) = writeTriple fb (writeCells fb m n) n := by
  rw [writeCells, List.range_succ, List.foldl_append]
  rfl

theorem writeCells_wf {fb m : Memory} {n : Nat} (hm : Memory.wf .rgb m) (hn : n ≤ Config.ncells) :
    Memory.wf .rgb (writeCells fb m n) := by
  induction n with
  | zero => exact hm
  | succ n ih =>
    rw [writeCells_succ]
    exact writeTriple_wf (ih (Nat.le_of_succ_le hn)) hn

theorem memRead_writeCells (fb m : Memory) (n i : Nat) :
    memRead .rgb i (writeCells fb m n) =
      if i / 3 < n then some (tripleByte (pal (cellIndex (fbByte (i / 3) fb))) (i % 3)) else memRead .rgb i m := by
  induction n with
  | zero => rfl
  | succ n ih =>
    rw [writeCells_succ, memRead_writeTriple, ih]
    by_cases hlast : i / 3 = n
    · rw [if_pos hlast, if_pos (by omega), hlast]
    · rw [if_neg hlast]
      exact if_congr (by omega) rfl rfl

/-- A canonical RGB has no value outside its space (R42). -/
theorem memRead_rgb_eq_none_of_le {m : Memory} {i : Nat} (hm : Memory.wf .rgb m) (hi : Config.nrgb ≤ i) :
    memRead .rgb i m = none := by
  rw [memRead_rgb]
  cases hl : memLookup i m with
  | none => rfl
  | some v => exact absurd (hm.2 _ (mem_of_memLookup hl)).1 (Nat.not_lt_of_le hi)

/-- All the writes leave `conv` of FB, whatever a canonical RGB held before (R111, R113; log entry 15). -/
theorem writeCells_ncells {m : Memory} (fb : Memory) (hm : Memory.wf .rgb m) :
    writeCells fb m Config.ncells = conv fb := by
  refine memory_ext (writeCells_wf hm le_rfl) (conv_wf fb) fun i => ?_
  have hcell : i / 3 < Config.ncells ↔ i < Config.nrgb := by
    rw [Config.nrgb, Config.bytesPerPixel]
    omega
  rw [memRead_writeCells, memRead_conv]
  exact if_ctx_congr hcell (fun _ => rfl) fun hout => memRead_rgb_eq_none_of_le hm (Nat.le_of_not_lt hout)

/-- Settles O56: the invariant makes RGB canonical before the writes, and a CONVERT that completes leaves `conv` of FB. -/
theorem convertEqualsItsWrites : Obligations.ConvertEqualsItsWrites := by
  intro s t hinv h ht
  obtain ⟨-, -, -, hrgb⟩ := exec_convert_running h ht
  obtain ⟨-, ⟨hwf, -, -⟩, -, -⟩ := hinv
  exact hrgb.trans (writeCells_ncells s.fb hwf).symm

/-! ## Steps that draw nothing -/

/-- The channel holds no reset and no word that draws. -/
def drawsNothing (s : State) : Prop := ∀ h ∈ s.inputs, leavesFb h

/-- FB is the same in both states, and the block runs in the second only if it ran in the first. -/
def keepsFrame (s t : State) : Prop := t.fb = s.fb ∧ (t.status.halted = false → s.status.halted = false)

/-- A command that draws nothing keeps FB and ends no halt (R22, R146). -/
theorem exec_keepsFrame {i : Instr} {s t : State} (h : exec i s = .next t) (hplot : ∀ x y c, i ≠ .plot x y c)
    (hline : ∀ x0 y0 x1 y1 c, i ≠ .drawLine x0 y0 x1 y1 c) : keepsFrame s t := by
  obtain ⟨hfb, -, hstatus⟩ := exec_changes h
  constructor
  · rcases hfb with hfb | ⟨x, y, c, rfl⟩ | ⟨x0, y0, x1, y1, c, rfl⟩
    · exact hfb
    · exact absurd rfl (hplot x y c)
    · exact absurd rfl (hline x0 y0 x1 y1 c)
  · rcases hstatus with hsame | ⟨hrun, -⟩
    · rw [hsame]
      exact id
    · exact fun _ => hrun

/-- A move that draws nothing and resets nothing keeps FB and ends no halt. -/
theorem hostMove_keepsFrame {m : HostInput} {s t : State} (h : hostMove m s = .next t) (hm : leavesFb m) :
    keepsFrame s t := by
  obtain ⟨hreset, hword⟩ := hm
  by_cases hsame : sameBlock s t
  · obtain ⟨hfb, -, hstatus⟩ := hsame
    exact ⟨hfb, fun ht => hstatus ▸ ht⟩
  · rcases hostMove_writes h hsame with rfl | ⟨w, rfl, ⟨i, hi, hexec⟩ | ⟨hrun, rfl⟩⟩
    · exact absurd rfl hreset
    · obtain ⟨hplot, hline⟩ := hword w rfl
      exact exec_keepsFrame hexec (fun x y c hic => hplot x y c (hic ▸ hi))
        fun x0 y0 x1 y1 c hic => hline x0 y0 x1 y1 c (hic ▸ hi)
    · exact ⟨rfl, fun _ => hrun⟩

/-- A command does not touch the channel. -/
theorem exec_inputs {i : Instr} {s t : State} (h : exec i s = .next t) : t.inputs = s.inputs := by
  rcases exec_cases h with ⟨-, -, rfl⟩ | ⟨-, c, -, -, rfl⟩ | ⟨-, rfl⟩ | ⟨-, heffect⟩
  · rfl
  · rfl
  · rfl
  · rcases heffect with ⟨x, y, c, -, -, -, -, rfl⟩ | ⟨x, y, -, rfl⟩ | ⟨x0, y0, x1, y1, c, -, -, -, -, -, -, rfl⟩ |
      ⟨-, rfl⟩ | ⟨off, v, -, -, -, -, rfl⟩
    · rfl
    · rfl
    · rfl
    · rfl
    · rfl

/-- Nor does a command word, legal or not. -/
theorem commandMove_inputs {w : CmdWord} {s t : State} (h : commandMove w s = .next t) : t.inputs = s.inputs := by
  rcases commandMove_cases h with ⟨i, -, hexec⟩ | ⟨e, -, ⟨-, rfl⟩ | ⟨-, rfl⟩⟩
  · exact exec_inputs hexec
  · rfl
  · rfl

/-- The two moves a present tick puts in the channel draw nothing (R155). -/
theorem drawsNothing_tickMove {s : State} (active : Bool) (hs : drawsNothing s) : drawsNothing (tickMove active s) := by
  cases active with
  | false => exact hs
  | true =>
    have hdecode : decodeWord (encode .convert) = .ok .convert := decodeInvertsEncode .convert rfl
    have hconvert : leavesFb (.command (encode .convert)) := by
      refine ⟨by simp, fun w hw => ?_⟩
      cases hw
      simp [hdecode]
    have hupload : leavesFb .upload := ⟨by decide, fun w hw => nomatch hw⟩
    exact List.forall_mem_cons.2 ⟨hconvert, List.forall_mem_cons.2 ⟨hupload, hs⟩⟩

/-- No move of the host puts a drawing word or a reset in the channel. -/
theorem hostMove_drawsNothing {m : HostInput} {s t : State} (h : hostMove m s = .next t) (hs : drawsNothing s) :
    drawsNothing t := by
  cases m with
  | command w =>
    rw [drawsNothing, commandMove_inputs h]
    exact hs
  | reset =>
    cases h
    exact hs
  | upload =>
    simp only [hostMove, uploadMove] at h
    split_ifs at h
    cases h
    exact hs
  | resize width height =>
    cases h
    exact hs
  | presentTick active =>
    cases h
    exact drawsNothing_tickMove active hs

/-- While the channel holds nothing that draws or resets, a step keeps it so, keeps FB, and ends no halt. -/
theorem step_keepsFrame {s t : State} (h : step s = .next t) (hs : drawsNothing s) : drawsNothing t ∧ keepsFrame s t := by
  cases hin : s.inputs with
  | nil =>
    simp only [step, nextMove, hin] at h
    cases h
    exact ⟨hs, rfl, id⟩
  | cons m rest =>
    rw [step_of_inputs hin] at h
    rw [drawsNothing, hin] at hs
    obtain ⟨hm, hrest⟩ := List.forall_mem_cons.1 hs
    exact ⟨hostMove_drawsNothing h hrest, hostMove_keepsFrame (s := setInputs rest s) h hm⟩

/-- A run of such steps keeps FB and ends no halt. -/
theorem runSteps_keepsFrame {n : Nat} {s u : State} (h : runSteps n s = .next u) (hs : drawsNothing s) :
    keepsFrame s u := by
  induction n generalizing s with
  | zero =>
    cases h
    exact ⟨rfl, id⟩
  | succ n ih =>
    obtain ⟨t, hstep, hrun⟩ := runSteps_succ.1 h
    obtain ⟨ht, hfb, hhalt⟩ := step_keepsFrame hstep hs
    obtain ⟨hfb', hhalt'⟩ := ih hrun ht
    exact ⟨hfb'.trans hfb, hhalt ∘ hhalt'⟩

/-- Settles O57: both CONVERTs complete, since no halt ended between them, and both convert the same FB. -/
theorem convertIsPure : Obligations.ConvertIsPure := by
  intro s t u v hs n hfirst hleaves hrun hsecond hv
  obtain ⟨hu, -, -, hvrgb⟩ := exec_convert_running hsecond hv
  obtain ⟨hfb, hhalt⟩ := runSteps_keepsFrame hrun hleaves
  obtain ⟨-, -, htfb, htrgb⟩ := exec_convert_running hfirst (hhalt hu)
  calc v.rgb = conv u.fb := hvrgb
    _ = conv t.fb := congrArg conv hfb
    _ = conv s.fb := congrArg conv htfb
    _ = t.rgb := htrgb.symm

end Sys2Proof.Machine
end

section
/-! READ_STATUS: its one word, halted or not, and the other words of its opcode (R130). -/

namespace Sys2Proof

/-- The one word of READ_STATUS's row is 0x6: no bit of it is an operand's (R65, R67). -/
theorem matchesWord_readStatus_iff_eq (w : CmdWord) : (rowFor .readStatus).matchesWord w = true ↔ w = 0x6#64 := by
  have hmask : w &&& (rowFor .readStatus).mask = w := BitVec.and_allOnes
  rw [OpRow.matchesWord, decide_eq_true_iff, hmask]
  rfl

end Sys2Proof

namespace Sys2Proof.Machine

/-- A response that reports data and no cause, as a number (R68). -/
theorem respWord_none (d : BitVec 16) : respWord .none d = BitVec.ofNat 32 (256 * d.toNat) := by
  have hd := d.isLt
  apply BitVec.eq_of_toNat_eq
  rw [respWord_toNat, BitVec.toNat_ofNat, causeCode, BitVec.toNat_ofNat]
  omega

/-- A word that is no command, by HALTED (R70, R145). -/
theorem commandMove_of_error {w : CmdWord} {e : DecodeError} (s : State) (he : decodeWord w = .error e) :
    commandMove w s =
      if s.status.halted = true then .next (respond .halted 0#16 s) else .next (raiseFault .illegalCommand s) := by
  split_ifs with hhalted
  · rw [commandMove, he]
    exact serve_halted hhalted
  · exact commandMove_illegal he (Bool.eq_false_of_not_eq_true hhalted)

/-- Settles O21: READ_STATUS makes no check, and its one response is a number. -/
theorem readStatusCompletes : Obligations.ReadStatusCompletes := by
  intro s
  rw [exec, execReadStatus, respond, respWord_none]

/-- Settles O14: the word's opcode leaves READ_STATUS's row alone, whose one word is 0x6; the STATUS word it returns is the
sum of its fields, and any other word is illegal. -/
theorem readStatusWordFollowsItsRule : Obligations.ReadStatusWordFollowsItsRule := by
  intro w s hop
  by_cases hw : w = 0x6#64
  · have hsum : (statusWord s.status).toNat =
        s.status.halted.toNat + 2 * s.status.rgbValid.toNat + 16 * (causeCode s.status.firstCause).toNat := by
      rw [statusWord_toNat]
      omega
    have hdecode : decodeWord w = .ok .readStatus := decodeWord_of_rowFor ((matchesWord_readStatus_iff_eq w).2 hw)
    rw [if_pos hw, commandMove, hdecode, ← hsum]
    exact readStatusCompletes s
  · have hrow : (rowFor .readStatus).matchesWord w = false :=
      Bool.eq_false_of_not_eq_true fun hmatch => hw ((matchesWord_readStatus_iff_eq w).1 hmatch)
    obtain ⟨e, he⟩ := decodeWord_error_of_fieldOp (op := .readStatus) hop hrow
    rw [if_neg hw, commandMove_of_error s he]

end Sys2Proof.Machine
end

section
/-! The cause a command word reports is the first of R145's order, and a fault is precise (R143, R145). -/

namespace Sys2Proof.Machine

/-! ## The cause a word reports -/

/-- What reporting the cause `c` does (R143, R144, R145): one response with that cause, HALTED changing nothing else and any
other cause but 0 raising its fault. -/
def reportsCause (c : Cause) (s t : State) : Prop :=
  (∃ d : BitVec 16, t.responses = respWord c d :: s.responses) ∧
  (c = .halted → t = respond .halted 0#16 s) ∧
  (c ≠ .none → c ≠ .halted → t = raiseFault c s)

theorem reportsCause_none {s t : State} {d : BitVec 16} (h : t.responses = respWord .none d :: s.responses) :
    reportsCause .none s t :=
  ⟨⟨d, h⟩, nofun, fun hne => absurd rfl hne⟩

theorem reportsCause_haltedReply (s : State) : reportsCause .halted s (haltedReply s) :=
  ⟨⟨_, rfl⟩, fun _ => rfl, fun _ hne => absurd rfl hne⟩

theorem reportsCause_raiseFault {c : Cause} (hne : c ≠ .halted) (s : State) : reportsCause c s (raiseFault c s) :=
  ⟨⟨_, rfl⟩, fun h => absurd h hne, fun _ _ => rfl⟩

/-- READ_RGB's range check comes before its validity check (R112). -/
theorem checkOf_readRgb_eq_ite (off : Nat) (s : State) :
    checkOf (.readRgb off) s =
      if Config.nrgb ≤ off then some .rgbRange else if s.status.rgbValid = false then some .rgbInvalid else none := by
  rw [checkOf]
  split_ifs with hrange hinvalid
  · rw [checkOff, require, decide_eq_false (Nat.not_lt_of_le hrange)]
    rfl
  · rw [checkOff_eq_none.2 (Nat.lt_of_not_le hrange), checkValid, hinvalid]
    rfl
  · rw [checkOff_eq_none.2 (Nat.lt_of_not_le hrange), checkValid, Bool.eq_true_of_not_eq_false hinvalid]
    rfl

/-- CONVERT's check, over every cell of FB (R111). -/
theorem checkIndices_eq_ite (m : Memory) [Decidable (∀ o, o < Config.ncells → (fbByte o m).toNat ≤ 15)] :
    checkIndices m = if ∀ o, o < Config.ncells → (fbByte o m).toNat ≤ 15 then none else some .cvIndex := by
  split_ifs with hcells
  · exact checkIndices_eq_none.2 hcells
  · obtain ⟨c, hc⟩ := Option.ne_none_iff_exists'.1 (mt checkIndices_eq_none.1 hcells)
    obtain ⟨-, rfl⟩ := require_eq_some.1 hc
    exact hc

/-- No check raises HALTED (R145). -/
theorem checkOf_ne_some_halted (i : Instr) (s : State) : checkOf i s ≠ some .halted := by
  cases i with
  | plot x y c => rw [checkOf, checkPointColor_eq_ite]; split_ifs <;> decide
  | readPixel x y => rw [checkOf, checkPoint_eq_ite]; split_ifs <;> decide
  | drawLine x0 y0 x1 y1 c => rw [checkOf, checkLine_eq_ite]; split_ifs <;> decide
  | convert => exact fun h => absurd (require_eq_some.1 h).2 (by decide)
  | readRgb off => rw [checkOf_readRgb_eq_ite]; split_ifs <;> decide
  | readStatus => nofun

/-- On a running block `serve` reports the cause of its check, or none where the check passes and what runs then responds
with none (R145). -/
theorem serve_reportsCause {check : State → Option Cause} {run : State → Result} {s t : State}
    (hrun : s.status.halted = false) (hne : check s ≠ some .halted) (h : serve check run s = .next t)
    (hresp : run s = .next t → ∃ d, t.responses = respWord .none d :: s.responses) :
    reportsCause ((check s).getD .none) s t := by
  rcases serve_cases h with ⟨hhalted, -⟩ | ⟨-, c, hcheck, rfl⟩ | ⟨-, hcheck, heffect⟩
  · exact absurd (hrun.symm.trans hhalted) (by decide)
  · rw [hcheck]
    exact reportsCause_raiseFault (fun hc => hne (hc ▸ hcheck)) s
  · obtain ⟨d, hd⟩ := hresp heffect
    rw [hcheck]
    exact reportsCause_none hd

/-- A command of a running block reports the cause of its check, or none where the check passes (R145). -/
theorem exec_reportsCause {i : Instr} {s t : State} (hrun : s.status.halted = false) (h : exec i s = .next t) :
    reportsCause ((checkOf i s).getD .none) s t := by
  have hne := checkOf_ne_some_halted i s
  cases i with
  | plot x y c =>
    simp only [exec, execPlot] at h
    exact (serve_reportsCause hrun hne h fun heffect => by cases heffect; exact ⟨_, rfl⟩ :)
  | readPixel x y =>
    simp only [exec, execReadPixel] at h
    exact (serve_reportsCause hrun hne h fun heffect => by cases heffect; exact ⟨_, rfl⟩ :)
  | drawLine x0 y0 x1 y1 c =>
    simp only [exec, execDrawLine] at h
    exact (serve_reportsCause hrun hne h fun heffect => by cases heffect; exact ⟨_, rfl⟩ :)
  | convert =>
    simp only [exec, execConvert] at h
    exact (serve_reportsCause hrun hne h fun heffect => by cases heffect; exact ⟨_, rfl⟩ :)
  | readRgb off =>
    simp only [exec, execReadRgb] at h
    refine (serve_reportsCause hrun hne h fun heffect => ?_ :)
    cases hv : rgbRead off s with
    | none => simp [hv] at heffect
    | some v =>
      simp only [hv] at heffect
      cases heffect
      exact ⟨_, rfl⟩
  | readStatus =>
    cases h
    exact reportsCause_none rfl

/-- READ_STATUS has one word (R65, R67). -/
theorem decodeWord_eq_readStatus_iff {w : CmdWord} : decodeWord w = .ok .readStatus ↔ w = 0x6#64 :=
  ⟨fun h => (encodeInvertsDecode w _ h).2.symm,
    fun h => decodeWord_of_rowFor ((matchesWord_readStatus_iff_eq w).2 h)⟩

/-- READ_STATUS's word responds with STATUS in every state (R130). -/
theorem commandMove_readStatus (s : State) :
    commandMove 0x6#64 s = .next (respond .none (statusWord s.status) s) := by
  rw [commandMove, decodeWord_eq_readStatus_iff.2 rfl]
  rfl

/-- A halted block answers HALTED to every word but READ_STATUS's (R144). -/
theorem commandMove_of_halted {w : CmdWord} {s : State} (hne : w ≠ 0x6#64) (hhalted : s.status.halted = true) :
    commandMove w s = .next (haltedReply s) := by
  cases hd : decodeWord w with
  | error e => rw [commandMove_of_error s hd, if_pos hhalted, haltedReply]
  | ok i =>
    rw [commandMove, hd]
    exact exec_of_halted (fun hi => hne (decodeWord_eq_readStatus_iff.1 (hi ▸ hd))) hhalted

/-- Settles O15: READ_STATUS's word and a halted block answer at once, an illegal word raises its fault, and a command of a
running block reports the cause of its check, which goes through the operands and the state in R145's order. -/
theorem reportedCauseFollowsCheckOrder : Obligations.ReportedCauseFollowsCheckOrder := by
  rintro w s t _ h rfl
  change reportsCause _ s t
  by_cases hw : w = 0x6#64
  · subst hw
    rw [commandMove_readStatus] at h
    cases h
    exact reportsCause_none rfl
  rw [if_neg hw]
  cases hrun : s.status.halted with
  | true =>
    rw [commandMove_of_halted hw hrun] at h
    cases h
    exact reportsCause_haltedReply s
  | false =>
    rw [if_neg Bool.false_ne_true]
    cases hd : decodeWord w with
    | error e =>
      rw [commandMove_illegal hd hrun] at h
      cases h
      exact reportsCause_raiseFault (c := .illegalCommand) (by decide) s
    | ok i =>
      rw [commandMove, hd] at h
      have hreport := exec_reportsCause hrun h
      cases i with
      | plot | readPixel | drawLine | convert =>
        simpa only [checkOf, checkPointColor_eq_ite, checkPoint_eq_ite, checkLine_eq_ite, checkIndices_eq_ite,
          apply_ite (Option.getD · Cause.none), Option.getD_some, Option.getD_none] using hreport
      | readRgb =>
        simpa only [checkOf_readRgb_eq_ite, apply_ite (Option.getD · Cause.none), Option.getD_some, Option.getD_none]
          using hreport
      | readStatus => exact hreport

/-! ## Faults -/

/-- A command that halts a running block raises a fault of one of the causes 1..7, and does nothing else (R143). -/
theorem exec_halts {i : Instr} {s t : State} (hrun : s.status.halted = false) (h : exec i s = .next t)
    (ht : t.status.halted = true) : ∃ c, c ≠ .none ∧ c ≠ .halted ∧ t = raiseFault c s := by
  rcases exec_cases h with ⟨hhalted, -⟩ | ⟨-, hfault⟩ | ⟨-, rfl⟩ | ⟨-, heffect⟩
  · exact absurd (hrun.symm.trans hhalted) (by decide)
  · exact hfault
  · exact absurd (hrun.symm.trans ht) (by decide)
  · have hkeeps : t.status.halted = s.status.halted := by
      rcases heffect with ⟨x, y, c, -, -, -, -, rfl⟩ | ⟨x, y, -, rfl⟩ | ⟨x0, y0, x1, y1, c, -, -, -, -, -, -, rfl⟩ |
        ⟨-, rfl⟩ | ⟨off, v, -, -, -, -, rfl⟩ <;> rfl
    exact absurd ((hrun.symm.trans hkeeps.symm).trans ht) (by decide)

/-- A word that halts a running block raises a fault of one of the causes 1..7, and does nothing else (R143). -/
theorem commandMove_halts {w : CmdWord} {s t : State} (hrun : s.status.halted = false) (h : commandMove w s = .next t)
    (ht : t.status.halted = true) : ∃ c, c ≠ .none ∧ c ≠ .halted ∧ t = raiseFault c s := by
  rcases commandMove_cases h with ⟨i, -, hexec⟩ | ⟨e, -, ⟨hhalted, -⟩ | ⟨-, rfl⟩⟩
  · exact exec_halts hrun hexec ht
  · exact absurd (hrun.symm.trans hhalted) (by decide)
  · exact ⟨.illegalCommand, by decide, by decide, rfl⟩

/-- The codes of the causes that halt the block are 1..7 (R141). -/
theorem causeCode_of_fault {c : Cause} (hnone : c ≠ .none) (hhalted : c ≠ .halted) :
    1 ≤ (causeCode c).toNat ∧ (causeCode c).toNat ≤ 7 := by
  cases c with
  | none => exact absurd rfl hnone
  | halted => exact absurd rfl hhalted
  | illegalCommand | cvX | cvY | cvColor | cvIndex | rgbRange | rgbInvalid => decide

/-- A response with DATA 0 is its cause's code (R68). -/
theorem respWord_zero (c : Cause) : respWord c 0#16 = (causeCode c).setWidth 32 := by
  cases c <;> rfl

/-- Settles O32: a word that halts a running block raises a fault, which writes HALTED and FIRST_CAUSE and responds. -/
theorem faultsArePrecise : Obligations.FaultsArePrecise := by
  intro w s t hrun h ht
  obtain ⟨c, hnone, hhalted, rfl⟩ := commandMove_halts hrun h ht
  obtain ⟨hlow, hhigh⟩ := causeCode_of_fault hnone hhalted
  refine ⟨rfl, rfl, rfl, rfl, rfl, hlow, hhigh, ?_⟩
  rw [raiseFault_responses, respWord_zero]
  rfl

end Sys2Proof.Machine
end

section
/-! The halted block, and the host's moves that are no command: uploads, resizes and present ticks (R144, R146, R155, R156,
R157). -/

namespace Sys2Proof.Machine

/-! ## The halted block -/

/-- Settles O33: an upload asks for RGB_VALID alone, READ_STATUS responds in every state, and any other word is answered
HALTED. -/
theorem haltedAnswersEveryWord : Obligations.HaltedAnswersEveryWord := by
  refine ⟨fun s _ hvalid => uploadMove_of_valid hvalid, fun w s hhalted => ⟨fun hne => ?_, ?_⟩⟩
  · rw [commandMove_of_halted hne hhalted, haltedReply, respond, respWord_zero]
    rfl
  · rintro rfl
    obtain ⟨hcause, -, hdata, -⟩ := respWord_fields .none (statusWord s.status)
    exact ⟨_, hcause, hdata, commandMove_readStatus s⟩

/-- No word changes the block while it is halted (R144). -/
theorem commandMove_sameBlock_of_halted {w : CmdWord} {s t : State} (hhalted : s.status.halted = true)
    (h : commandMove w s = .next t) : sameBlock s t := by
  by_cases hw : w = 0x6#64
  · subst hw
    rw [commandMove_readStatus] at h
    cases h
    exact ⟨rfl, rfl, rfl⟩
  · rw [commandMove_of_halted hw hhalted] at h
    cases h
    exact ⟨rfl, rfl, rfl⟩

/-- No word clears RGB_VALID: a fault keeps it and a CONVERT that completes sets it (R32). -/
theorem commandMove_keeps_rgbValid {w : CmdWord} {s t : State} (hvalid : s.status.rgbValid = true)
    (h : commandMove w s = .next t) : t.status.rgbValid = true := by
  by_cases hsame : t.status = s.status
  · rw [hsame, hvalid]
  · obtain hreset | ⟨-, -, -, ⟨c, -, -, hst⟩ | ⟨-, hst⟩⟩ := statusChangesOnlyAsRuled (.command w) s t h hsame
    · exact absurd hreset nofun
    · rw [hst, hvalid]
    · rw [hst]

/-- Settles O34: a halted block is changed by no word and by no move but a reset, which empties it. -/
theorem onlyResetLeavesTheHalt : Obligations.OnlyResetLeavesTheHalt := by
  refine ⟨fun m s t hhalted h => ?_, fun w s t h => ⟨fun hhalted => ?_, fun hvalid => commandMove_keeps_rgbValid hvalid h⟩⟩
  · rcases hostMove_cases h with ⟨w, rfl, hw⟩ | ⟨rfl, rfl⟩ | ⟨hne, hsame, -⟩
    · exact ⟨fun _ => commandMove_sameBlock_of_halted hhalted hw, nofun⟩
    · exact ⟨fun hne => absurd rfl hne, fun _ => ⟨rfl, rfl, rfl, fun _ => rfl, fun _ => rfl⟩⟩
    · exact ⟨fun _ => hsame, fun hreset => absurd hreset hne⟩
  · obtain ⟨-, -, hst⟩ := commandMove_sameBlock_of_halted hhalted h
    rw [hst]
    exact ⟨hhalted, rfl⟩

/-! ## The moves that are no command -/

/-- Settles O25: the snapshot is RGB itself, full under the invariant, and READ_RGB reads the same bytes of it. -/
theorem uploadTakesAllOfRgb : Obligations.UploadTakesAllOfRgb := by
  intro s hinv hvalid
  refine ⟨_, s.rgb, uploadMove_of_valid hvalid, rfl, ⟨rfl, rfl, rfl⟩, rfl, rfl, fun off hoff => ?_⟩
  obtain ⟨v, hv⟩ := exists_memRead_of_inv hinv hvalid hoff
  exact ⟨v, hv, hv, fun hrun => exec_readRgb_completes hrun hoff hvalid hv⟩

/-- Settles O26: RGB_VALID is what the upload asks for. -/
theorem uploadBeforeConvertStops : Obligations.UploadBeforeConvertStops := by
  intro s hinvalid
  simp [hostMove, uploadMove, hinvalid]

/-- Settles O28: a resize answers the state it is given. -/
theorem resizeChangesNothing : Obligations.ResizeChangesNothing := fun _ _ _ => rfl

/-- Settles O29: the tick is taken off the channel, and an active surface's puts CONVERT's word and an upload there instead. -/
theorem presentTickIssuesConvertThenUpload : Obligations.PresentTickIssuesConvertThenUpload := by
  have hword : encode .convert = 0x4#64 := by decide
  intro s rest
  constructor <;> intro hin <;> rw [step_of_inputs hin, hostMove, tickMove]
  · rw [if_pos rfl, hword]
    rfl
  · rfl

end Sys2Proof.Machine
end

section
/-! Reset, the step with an empty channel, and what a read sees directly after a write (R170, R171, R175). -/

namespace Sys2Proof.Machine

/-! ## Reads directly after writes -/

/-- DRAW_LINE leaves a running block running only on legal operands (R90, R145). -/
theorem legal_of_exec_drawLine {x0 y0 x1 y1 c : Nat} {s t : State} (h : exec (.drawLine x0 y0 x1 y1 c) s = .next t)
    (ht : t.status.halted = false) :
    x0 < Config.width ∧ y0 < Config.height ∧ x1 < Config.width ∧ y1 < Config.height ∧ c ≤ Config.indexMax := by
  simp only [exec, execDrawLine] at h
  rcases serve_cases h with ⟨hhalted, rfl⟩ | ⟨-, d, -, rfl⟩ | ⟨-, hcheck, -⟩
  · exact absurd (ht.symm.trans hhalted) (by decide)
  · exact absurd ht (by simp)
  · exact checkLine_eq_none.1 hcheck

/-- A READ_PIXEL of a cell of a line just drawn answers the line's colour (R175). -/
theorem exec_readPixel_after_drawLine {x0 y0 x1 y1 c x y : Nat} {s t : State}
    (h : exec (.drawLine x0 y0 x1 y1 c) s = .next t) (ht : t.status.halted = false)
    (hp : ((x : Int), (y : Int)) ∈ linePixels x0 y0 x1 y1) :
    exec (.readPixel x y) t = .next { t with responses := BitVec.ofNat 32 (256 * c) :: t.responses } := by
  obtain ⟨hx0, hy0, hx1, hy1, hc⟩ := legal_of_exec_drawLine h ht
  obtain ⟨a, b, ha, hb, hab⟩ := exists_cell_of_mem_linePixels hx0 hy0 hx1 hy1 hp
  obtain ⟨hxa, hyb⟩ := Prod.mk.inj hab
  obtain rfl := Int.ofNat.inj hxa
  obtain rfl := Int.ofNat.inj hyb
  have hcell : fbRead x y t = BitVec.ofNat 8 c := by
    rw [exec_drawLine_running h ht]
    exact fbByte_fbPutAll_of_mem hp _ _
  have hbyte : (BitVec.ofNat 8 c).toNat = c := by
    rw [BitVec.toNat_ofNat]
    exact Nat.mod_eq_of_lt (hc.trans_lt (by decide))
  rw [exec_readPixel_completes ht ha hb, hcell, respond, respWord_none_byte, hbyte]

/-- A CONVERT that leaves the block running has set RGB_VALID (R111). -/
theorem rgbValid_of_exec_convert {s t : State} (h : exec .convert s = .next t) (ht : t.status.halted = false) :
    t.status.rgbValid = true := by
  obtain ⟨hrun, hcells, -, -⟩ := exec_convert_running h ht
  obtain rfl := Host.Outcome.next.inj ((exec_convert_completes hrun hcells).symm.trans h)
  rfl

/-- A READ_RGB of a byte of a pixel just converted answers the converted byte (R175). -/
theorem exec_readRgb_after_convert {x y j : Nat} {s t : State} (h : exec .convert s = .next t)
    (ht : t.status.halted = false) (hx : x < Config.width) (hy : y < Config.height) (hj : j < 3) :
    exec (.readRgb (rgbOff x y + j)) t =
      .next { t with
        responses :=
          BitVec.ofNat 32 (256 * (tripleByte (pal (BitVec.ofNat 4 (fbRead x y s).toNat)) j).toNat) :: t.responses } := by
  obtain ⟨-, -, -, hrgb⟩ := exec_convert_running h ht
  have hin : rgbOff x y + j < Config.nrgb := by
    have hoff := fbOff_lt hx hy
    simp only [rgbOff, Config.nrgb, Config.bytesPerPixel]
    omega
  have hread : rgbRead (rgbOff x y + j) t = some (tripleByte (pal (BitVec.ofNat 4 (fbRead x y s).toNat)) j) := by
    rw [rgbRead, hrgb]
    exact memRead_conv_pixel s.fb hx hy hj
  rw [exec_readRgb_completes ht hin (rgbValid_of_exec_convert h ht) hread, respond, respWord_none_byte]

/-- Settles O43: a PLOT is a line of one cell, the pixels of a completed line hold its colour, and a completed CONVERT leaves
`conv` of FB in RGB. -/
theorem readsSeeTheLastWrite : Obligations.ReadsSeeTheLastWrite := by
  refine ⟨fun x y c s t h ht => ?_, fun x0 y0 x1 y1 c x y s t h ht hp => ?_, fun x y j s t h ht hx hy hj => ?_⟩
  · rw [plotIsAZeroLengthLine] at h
    have hp : ((x : Int), (y : Int)) ∈ linePixels x y x y := by
      rw [linePixels_self]
      exact List.mem_singleton_self _
    exact ⟨_, exec_readPixel_after_drawLine h ht hp, rfl⟩
  · exact ⟨_, exec_readPixel_after_drawLine h ht hp, rfl⟩
  · exact ⟨_, exec_readRgb_after_convert h ht hx hy hj, rfl⟩

/-! ## Reset and the empty channel -/

/-- Settles O24: a reset of any state leaves the block as the reset state has it, both memories empty and STATUS 0. -/
theorem resetReachesTheResetState : Obligations.ResetReachesTheResetState := by
  refine ⟨fun t ht => ?_, fun s => ⟨applyReset s, rfl⟩⟩
  have hblock : sameBlock State.reset t := by
    rcases ht with rfl | ⟨s, hs⟩
    · exact ⟨rfl, rfl, rfl⟩
    · cases hs
      exact ⟨rfl, rfl, rfl⟩
  obtain ⟨hfb, hrgb, hst⟩ := hblock
  rw [hfb, hrgb, hst]
  exact ⟨fun _ => rfl, fun _ => rfl, rfl, rfl, rfl, rfl⟩

/-- Settles O30: with no move at the head of the channel the step answers the state it is given. -/
theorem idleStepChangesNothing : Obligations.IdleStepChangesNothing := by
  intro s hin
  simp [step, nextMove, hin]

end Sys2Proof.Machine
end
